-- ==== Sys2Proof/Word.lean ====
section
/-!
DEFINITION. The word types of the block (spec/00_scope.md R6, R9; spec/30_encoding.md R60): a byte of the
segment buffer, a seven-segment pattern and a host command word. Every value is an unsigned bit vector.
-/

namespace Sys2Proof

/-- A SegmentByte, a character code, a command code or an `arg8` (R6: `BYTE` is 8 bits). -/
abbrev Byte := BitVec 8

/-- A seven-segment pattern (R6: `GLYPH_BITS` is 7, bits 0-6). -/
abbrev Glyph := BitVec 7

/-- One host operation as it stands on the port `cmd_word` (spec/30_encoding.md R60). -/
abbrev CmdWord := BitVec 64

end Sys2Proof
end

