-- ==== Sys2Proof/Syntax.lean ====
section
/-!
DEFINITION. The host operations (spec/30_encoding.md R60 to R66), one constructor for each row of spec/opcode_table.json.
An operand has the width the word gives it; every operand value is a legal encoding (R64). The two reserved rows keep
the opcode that was presented, so that no used bit of a word is lost (log 8).
-/

namespace Sys2Proof

/-- A host operation. -/
inductive Instr where
  /-- `NOP`, spec/41_buffer_ops.md R97. -/
  | nop
  /-- `CLR_BATT`, R90. -/
  | clrBatt
  /-- `CLR_DP`, R91. -/
  | clrDp
  /-- `CLR_GLYPH`, R92. -/
  | clrGlyph
  /-- `CLR_ALL`, R93. -/
  | clrAll
  /-- `WR_TEXT`, R94: the `len` field and the six character codes, `c0` for the leftmost position (R62). -/
  | wrText (len : BitVec 3) (c0 c1 c2 c3 c4 c5 : Byte)
  /-- `WR_BATT`, R95: `arg8` as a percentage. -/
  | wrBatt (percent : Byte)
  /-- `WR_DP`, R96: `arg8` as a count of digits from the right. -/
  | wrDp (pos : Byte)
  /-- `SEND_CMD`, spec/42_packet_ops.md R112: `arg8` as a command code. -/
  | sendCmd (code : Byte)
  /-- `SEND_BUF`, R115. -/
  | sendBuf
  /-- A reserved opcode 0xA or 0xB (R66), with the opcode presented. -/
  | reservedAB (op : BitVec 4)
  /-- A reserved opcode 0xC to 0xF (R66), with the opcode presented. -/
  | reservedCF (op : BitVec 4)
  deriving DecidableEq, Repr

end Sys2Proof
end

