-- ==== Sys2Proof/WellFormed.lean ====
section
/-!
DEFINITION. Which terms of `Instr` stand for a word. Every operand value of the ten named operations is a legal
encoding (spec/30_encoding.md R64: "Values outside the source's stated input ranges ... are legal encodings"; R63 for a
`len` of 7), so the only check is that a reserved row's opcode lies in that row's range (R61, R66).
-/

namespace Sys2Proof

/-- The check of an operation's operands. -/
def Instr.wellFormed : Instr → Bool
  | .nop => true
  | .clrBatt => true
  | .clrDp => true
  | .clrGlyph => true
  | .clrAll => true
  | .wrText _ _ _ _ _ _ _ => true
  | .wrBatt _ => true
  | .wrDp _ => true
  | .sendCmd _ => true
  | .sendBuf => true
  | .reservedAB op => decide (op = 0xA#4 ∨ op = 0xB#4)
  | .reservedCF op => decide (0xC ≤ op.toNat)

end Sys2Proof
end

