-- ==== Sys2Proof/Decode.lean ====
section
/-!
DEFINITION. The decoder and the encoder of the host command word (spec/30_encoding.md Part A, R60 to R66), and the opcode
table's rows as masks and patterns. The decoder is total and refuses nothing: every 64-bit word is an operation with a
meaning (spec/60_exceptions.md R152).
-/

namespace Sys2Proof

/-! ### Fields of the command word (R60) -/

/-- `op = cmd_word[63:60]`. -/
def opField (w : CmdWord) : BitVec 4 := w.extractLsb' 60 4

/-- `len = cmd_word[58:56]`. -/
def lenField (w : CmdWord) : BitVec 3 := w.extractLsb' 56 3

/-- `c_i = cmd_word[8i+7 : 8i]`; `arg8` is `c_0` (R62). -/
def charField (w : CmdWord) (i : Nat) : Byte := w.extractLsb' (8 * i) 8

/-! ### Decoding -/

/-- The operation a command word stands for, selected by `op` alone (R61); ignored bits are not read (R62, R65). -/
def decode (w : CmdWord) : Instr :=
  if opField w = 0x0#4 then .nop
  else if opField w = 0x1#4 then .clrBatt
  else if opField w = 0x2#4 then .clrDp
  else if opField w = 0x3#4 then .clrGlyph
  else if opField w = 0x4#4 then .clrAll
  else if opField w = 0x5#4 then
    .wrText (lenField w) (charField w 0) (charField w 1) (charField w 2)
      (charField w 3) (charField w 4) (charField w 5)
  else if opField w = 0x6#4 then .wrBatt (charField w 0)
  else if opField w = 0x7#4 then .wrDp (charField w 0)
  else if opField w = 0x8#4 then .sendCmd (charField w 0)
  else if opField w = 0x9#4 then .sendBuf
  else if opField w = 0xA#4 ∨ opField w = 0xB#4 then .reservedAB (opField w)
  else .reservedCF (opField w)

/-- The operation decoded from a table row's word of `nbits` bits, every bit above them 0. The block has one word length
and no byte order of its own (R60, spec/20_memory.md R43), so the number is the word; a row of more than 64 bits is no
word of this block and is refused (log 7). -/
def decodeTableWord (nbits w : Nat) : Option Instr :=
  if nbits ≤ 64 then some (decode (BitVec.ofNat 64 (w % 2 ^ nbits))) else none

/-! ### Encoding -/

/-- The opcode of an operation (R61). -/
def Instr.opcode : Instr → BitVec 4
  | .nop => 0x0#4
  | .clrBatt => 0x1#4
  | .clrDp => 0x2#4
  | .clrGlyph => 0x3#4
  | .clrAll => 0x4#4
  | .wrText _ _ _ _ _ _ _ => 0x5#4
  | .wrBatt _ => 0x6#4
  | .wrDp _ => 0x7#4
  | .sendCmd _ => 0x8#4
  | .sendBuf => 0x9#4
  | .reservedAB op => op
  | .reservedCF op => op

/-- Format `F_NONE` (R62), the ignored bits 0 as software should write them (R65). -/
def formNone (op : BitVec 4) : CmdWord := op ++ 0#60

/-- Format `F_BYTE` (R62). -/
def formByte (op : BitVec 4) (arg8 : Byte) : CmdWord := op ++ 0#52 ++ arg8

/-- Format `F_TEXT` (R62): op, bit 59, len, bits 55 to 48, then c5 down to c0. -/
def formText (op : BitVec 4) (len : BitVec 3) (c0 c1 c2 c3 c4 c5 : Byte) : CmdWord :=
  op ++ 0#1 ++ len ++ 0#8 ++ c5 ++ c4 ++ c3 ++ c2 ++ c1 ++ c0

/-- The word of an operation, every ignored bit 0. -/
def encode : Instr → CmdWord
  | .nop => formNone 0x0#4
  | .clrBatt => formNone 0x1#4
  | .clrDp => formNone 0x2#4
  | .clrGlyph => formNone 0x3#4
  | .clrAll => formNone 0x4#4
  | .wrText len c0 c1 c2 c3 c4 c5 => formText 0x5#4 len c0 c1 c2 c3 c4 c5
  | .wrBatt p => formByte 0x6#4 p
  | .wrDp pos => formByte 0x7#4 pos
  | .sendCmd code => formByte 0x8#4 code
  | .sendBuf => formNone 0x9#4
  | .reservedAB op => formNone op
  | .reservedCF op => formNone op

/-- The bits of a word that its operation reads (R62): `op` always, `arg8` for `F_BYTE`, `len` and `c0`..`c5` for
`F_TEXT`. The other bits are ignored (R65). -/
def usedBits (w : CmdWord) : CmdWord :=
  if opField w = 0x5#4 then 0xF700FFFFFFFFFFFF#64
  else if opField w = 0x6#4 ∨ opField w = 0x7#4 ∨ opField w = 0x8#4 then 0xF0000000000000FF#64
  else 0xF000000000000000#64

/-! ### The opcode table as masks and patterns (spec/opcode_table.json) -/

/-- A row of the opcode table. -/
structure OpcodeRow where
  mnemonic : String
  pattern : CmdWord
  mask : CmdWord
  deriving DecidableEq, Repr

/-- A word belongs to a row when its bits under the mask are the row's pattern. -/
def OpcodeRow.covers (r : OpcodeRow) (w : CmdWord) : Bool := decide (w &&& r.mask = r.pattern)

/-- The row of an operation. -/
def Instr.row : Instr → OpcodeRow
  | .nop => ⟨"NOP", 0x0000000000000000#64, 0xF000000000000000#64⟩
  | .clrBatt => ⟨"CLR_BATT", 0x1000000000000000#64, 0xF000000000000000#64⟩
  | .clrDp => ⟨"CLR_DP", 0x2000000000000000#64, 0xF000000000000000#64⟩
  | .clrGlyph => ⟨"CLR_GLYPH", 0x3000000000000000#64, 0xF000000000000000#64⟩
  | .clrAll => ⟨"CLR_ALL", 0x4000000000000000#64, 0xF000000000000000#64⟩
  | .wrText _ _ _ _ _ _ _ => ⟨"WR_TEXT", 0x5000000000000000#64, 0xF000000000000000#64⟩
  | .wrBatt _ => ⟨"WR_BATT", 0x6000000000000000#64, 0xF000000000000000#64⟩
  | .wrDp _ => ⟨"WR_DP", 0x7000000000000000#64, 0xF000000000000000#64⟩
  | .sendCmd _ => ⟨"SEND_CMD", 0x8000000000000000#64, 0xF000000000000000#64⟩
  | .sendBuf => ⟨"SEND_BUF", 0x9000000000000000#64, 0xF000000000000000#64⟩
  | .reservedAB _ => ⟨"RESERVED__op_0xA-0xB__acts_as_NOP", 0xA000000000000000#64, 0xE000000000000000#64⟩
  | .reservedCF _ => ⟨"RESERVED__op_0xC-0xF__acts_as_NOP", 0xC000000000000000#64, 0xC000000000000000#64⟩

/-- The twelve rows, in the table's order. -/
def opcodeRows : List OpcodeRow :=
  [Instr.nop.row, Instr.clrBatt.row, Instr.clrDp.row, Instr.clrGlyph.row, Instr.clrAll.row,
    (Instr.wrText 0 0 0 0 0 0 0).row, (Instr.wrBatt 0).row, (Instr.wrDp 0).row, (Instr.sendCmd 0).row,
    Instr.sendBuf.row, (Instr.reservedAB 0).row, (Instr.reservedCF 0).row]

end Sys2Proof
end

