-- ==== Sys2Proof/Config.lean ====
section
/-!
DEFINITION. The static parameters of the block (spec/00_scope.md R6, R7) and the constants the source fixes.
A machine is built with one `Config`; State carries it and no step changes it (log 1), so a statement about every state
is a statement about every choice of the parameters. The two parameters to which the spec gives no value are opaque
here: nothing can be proved about their value (log 3).
-/

namespace Sys2Proof

/-- `LOWERCASE_MODE` (spec/40_rom.md R82): lowercase codes are blank, or copies of the uppercase patterns. -/
inductive LowercaseMode where
  | blank
  | dupUpper
  deriving DecidableEq, Repr

/-- The parameters of spec/00_scope.md R6 that are not fixed by the source. -/
structure Config where
  /-- `CMD_TAG`, the command packet's type tag (R71). -/
  cmdTag : BitVec 4
  /-- `DATA_TAG`, the data packet's type tag (R71). -/
  dataTag : BitVec 3
  /-- `CS_PRESENT`: the block has a chip-select capability (R139). -/
  csPresent : Bool
  /-- `LOWERCASE_MODE` (R82). -/
  lowercaseMode : LowercaseMode
  /-- `DIGIT_PAT`, the patterns of '0' to '9' (R84). -/
  digitPat : Vector Glyph 10
  /-- `MINUS_PAT` (R84). -/
  minusPat : Glyph
  /-- `LETTER_PAT`, the patterns of 'A' to 'Z' (R85). -/
  letterPat : Vector Glyph 26
  /-- `T_CYCLE`, the period of the block clock, in a unit the spec does not state (R181). -/
  tCycle : Nat
  deriving DecidableEq, Repr

namespace Config

/-- `LETTER_PAT` has no default (R85: "an OPEN parameter with no default"): a free value (log 3). -/
opaque freeLetterPat : Vector Glyph 26

/-- `T_CYCLE` is OPEN (R181): a free value (log 3). -/
opaque freeTCycle : Nat

/-- The default digit patterns of spec/40_rom.md R84. PRESUMED by the spec itself, from general knowledge (log 2). -/
def defaultDigitPat : Vector Glyph 10 :=
  #v[0x7D#7, 0x60#7, 0x3E#7, 0x7A#7, 0x63#7, 0x5B#7, 0x5F#7, 0x70#7, 0x7F#7, 0x7B#7]

/-- The spec's default for every parameter that has one (spec/00_scope.md R6); the other two are free values (log 2, 3). -/
def default : Config where
  cmdTag := 0b1000#4
  dataTag := 0b101#3
  csPresent := true
  lowercaseMode := .blank
  digitPat := defaultDigitPat
  minusPat := 0x02#7
  letterPat := freeLetterPat
  tCycle := freeTCycle

end Config

/-- `START_ADDR` (spec/00_scope.md R6, spec/20_memory.md R46): the data packet's address, 0 on every transmission. -/
def startAddr : BitVec 6 := 0b000000#6

end Sys2Proof
end

