-- ==== Sys2Proof/Machine/State.lean ====
section
/-!
DEFINITION. The state of the block (spec/10_state.md R20 to R33): the segment buffer, the transmitter, the pin registers,
with the bus observation (spec/43_transmitter.md R131), the host's port signals (R31) and the static parameters
(spec/00_scope.md R6, R7) beside them; the state after reset (spec/70_reset_and_hazards.md R171); the reasons a step can
stop, of which the spec gives none.
-/

namespace Sys2Proof.Machine

/-- The segment buffer `BUF` (R20): exactly six SegmentBytes, `b0` the leftmost position. -/
structure SegBuf where
  b0 : Byte
  b1 : Byte
  b2 : Byte
  b3 : Byte
  b4 : Byte
  b5 : Byte
  deriving DecidableEq, Repr

/-- `tx_phase` (R29): where the sequencer is within a transaction. -/
inductive TxPhase where
  | idle
  | csLo
  | bitD
  | bitCl
  | bitCh
  | csHi
  deriving DecidableEq, Repr

/-- The three output pins (R30). -/
inductive Pin where
  | csN
  | clk
  | data
  deriving DecidableEq, Repr

/-- The output pin registers (R30); `true` is high, 1. -/
structure Pins where
  csN : Bool
  clk : Bool
  data : Bool
  deriving DecidableEq, Repr

/-- The levels of R30 and R171: chip-select released, clock high, data low. -/
def Pins.idle : Pins := ⟨true, true, false⟩

/-- One entry of the bus observation (spec/00_scope.md R11, spec/70_reset_and_hazards.md R172). -/
inductive BusEvent where
  /-- `emit(P, L)`. -/
  | emit (pin : Pin) (level : Bool)
  /-- The `RESET` marker. -/
  | reset
  deriving DecidableEq, Repr

/-- What the host drives on the input ports in one cycle (R31). -/
structure PortIn where
  rst : Bool
  cmdValid : Bool
  cmdWord : CmdWord
  deriving DecidableEq, Repr

/-- A cycle in which the host presents nothing. -/
def PortIn.quiet : PortIn := ⟨false, false, 0#64⟩

/-- The block with its parameters, its observation so far and the host's signals for the coming cycles. -/
structure State where
  /-- The static parameters (spec/00_scope.md R6, R7; log 1). -/
  cfg : Config
  /-- `BUF` (R20). -/
  buf : SegBuf
  /-- `tx_phase` (R29). -/
  txPhase : TxPhase
  /-- `shreg` (R29): the packet being sent, its first wire bit in bit 63. -/
  shreg : BitVec 64
  /-- `nbits` (R29): the number of wire bits of the packet being sent. -/
  nbits : Nat
  /-- `bidx` (R29): the index of the wire bit being sent. -/
  bidx : Nat
  /-- The pin registers (R30). -/
  pins : Pins
  /-- The bus observation so far, oldest first (spec/43_transmitter.md R131; log 5). -/
  obs : List BusEvent
  /-- The input ports (R31) in this cycle (the head) and in the coming ones; past the end the host is silent (log 4). -/
  inputs : List PortIn
  deriving DecidableEq, Repr

/-- The state right after reset (spec/70_reset_and_hazards.md R171), built with the spec's default parameters (log 2, 3),
nothing observed yet (log 5) and a silent host (log 4). -/
def State.reset : State where
  cfg := Config.default
  buf := ⟨0x00#8, 0x00#8, 0x00#8, 0x00#8, 0x00#8, 0x00#8⟩
  txPhase := .idle
  shreg := 0#64
  nbits := 0
  bidx := 0
  pins := Pins.idle
  obs := []
  inputs := []

/-- The faults of the block: none. "For a model, the block has no fault outcome and no refused operation"
(spec/60_exceptions.md R152), so no constructor stands here (log 12). -/
inductive Fault
  deriving DecidableEq, Repr

/-- The refusals of the model. -/
inductive Refusal where
  /-- An instruction without a meaning yet, rejected by name in an arm of `exec`; safe. Every instruction of this block
  has its meaning, so no arm raises it (log 12). -/
  | notModelled (mnemonic : String)
  deriving DecidableEq, Repr

end Sys2Proof.Machine
end

