-- ==== Sys2Proof/Machine/Ops.lean ====
section
/-!
DEFINITION. The named operations over the state: the state primitives `BUF[i]`, `BUF[i][6:0] <- g`, `BUF[i][7] <- b`
(spec/00_scope.md R10), the pin primitive `emit` (R11), the combinational outputs `ready` and `buf_rd`
(spec/10_state.md R32, R33), the host's ports and the reset cycle (spec/70_reset_and_hazards.md R170, R172).
There is no memory operation (spec/20_memory.md R40, log 11) and no exception to take or to return from
(spec/60_exceptions.md R150, R155, log 12).
-/

namespace Sys2Proof.Machine

/-! ### SegmentBytes (spec/10_state.md R21) -/

/-- `OVL`, bit 7 of a SegmentByte. -/
def ovl (v : Byte) : Bool := v.getLsbD 7

/-- `GLYPH`, bits 6 to 0 of a SegmentByte. -/
def glyph (v : Byte) : Glyph := v.extractLsb' 0 7

/-- `{OVL, GLYPH}`. -/
def segByte (o : Bool) (g : Glyph) : Byte := BitVec.ofBool o ++ g

/-- `v[7] <- o`. -/
def withOvl (v : Byte) (o : Bool) : Byte := segByte o (glyph v)

/-- `v[6:0] <- g`. -/
def withGlyph (v : Byte) (g : Glyph) : Byte := segByte (ovl v) g

/-! ### The buffer (R10, R20, R22) -/

/-- `BUF[i]`. -/
def SegBuf.get (b : SegBuf) (i : Fin 6) : Byte :=
  match i with
  | 0 => b.b0
  | 1 => b.b1
  | 2 => b.b2
  | 3 => b.b3
  | 4 => b.b4
  | 5 => b.b5

/-- The buffer whose entry `i` is `f i`: one atomic update of all positions (spec/20_memory.md R48). -/
def SegBuf.ofFn (f : Fin 6 → Byte) : SegBuf := ⟨f 0, f 1, f 2, f 3, f 4, f 5⟩

/-- `BATT_POS`, the positions whose overlay is a battery bar (spec/00_scope.md R6, R22). -/
def isBattPos (i : Fin 6) : Bool := decide (i.val < 3)

/-- `DP_POS`, the positions whose overlay is a decimal point (spec/00_scope.md R6, R22). -/
def isDpPos (i : Fin 6) : Bool := decide (3 ≤ i.val)

/-- `BUF[i][7] <- v i` for every position of `P`. -/
def SegBuf.setOvls (P : Fin 6 → Bool) (v : Fin 6 → Bool) (b : SegBuf) : SegBuf :=
  SegBuf.ofFn fun i => if P i then withOvl (b.get i) (v i) else b.get i

/-- `BUF[i][6:0] <- g i` for every position. -/
def SegBuf.setGlyphs (g : Fin 6 → Glyph) (b : SegBuf) : SegBuf :=
  SegBuf.ofFn fun i => withGlyph (b.get i) (g i)

/-! ### Pins and the bus observation (R11, R30, R131) -/

/-- A pin register takes a level. -/
def Pins.set (p : Pins) (pin : Pin) (level : Bool) : Pins :=
  match pin with
  | .csN => { p with csN := level }
  | .clk => { p with clk := level }
  | .data => { p with data := level }

/-- `emit(P, L)` (R11): the register holds `L` from then on, and the event joins the observation. -/
def emit (pin : Pin) (level : Bool) (s : State) : State :=
  { s with pins := s.pins.set pin level, obs := s.obs ++ [.emit pin level] }

/-! ### Combinational outputs -/

/-- `ready` (R32): 1 exactly when `tx_phase = IDLE`. -/
def State.ready (s : State) : Bool := decide (s.txPhase = .idle)

/-- `buf_rd` (R33): `buf_rd[8i+7 : 8i] = BUF[i]`. -/
def State.bufRd (s : State) : BitVec 48 :=
  s.buf.b5 ++ s.buf.b4 ++ s.buf.b3 ++ s.buf.b2 ++ s.buf.b1 ++ s.buf.b0

/-! ### The host's ports (R31, log 4) -/

/-- What the host drives in this cycle. -/
def State.portNow (s : State) : PortIn := s.inputs.headD PortIn.quiet

/-- The ports move on to the next cycle. -/
def State.nextPort (s : State) : State := { s with inputs := s.inputs.tail }

/-- The state whose ports carry `p` in this cycle. -/
def State.withPort (s : State) (p : PortIn) : State := { s with inputs := p :: s.inputs.tail }

/-! ### Changing the buffer; doing nothing -/

/-- An operation that writes the buffer and nothing else (R98). -/
def State.withBuf (s : State) (b : SegBuf) : State := { s with buf := b }

/-! ### Reset (spec/70_reset_and_hazards.md R170, R172) -/

/-- A cycle with `rst = 1`: every piece of the block's state goes to its reset value and a `RESET` marker joins the
observation. The static parameters stay (R7), and so do the signals the host drives later (log 13). -/
def resetBlock (s : State) : State :=
  { State.reset with cfg := s.cfg, obs := s.obs ++ [.reset], inputs := s.inputs }

end Sys2Proof.Machine
end

