-- ==== Sys2Proof/Machine/Rom.lean ====
section
/-!
DEFINITION. The character encoder ROM (spec/40_rom.md R80 to R87): a pure function of the parameters and the code.
-/

namespace Sys2Proof.Machine

/-- The pattern with all seven bits clear (spec/00_scope.md R13, Blank). -/
def blankGlyph : Glyph := 0b0000000#7

/-- `rom(c)` (R80), branch by branch as the spec writes it. -/
def rom (cfg : Config) (c : Byte) : Glyph :=
  if c = 0x20#8 then blankGlyph
  else if h : 0x30 ≤ c.toNat ∧ c.toNat ≤ 0x39 then cfg.digitPat[c.toNat - 0x30]'(by omega)
  else if h : 0x41 ≤ c.toNat ∧ c.toNat ≤ 0x5A then cfg.letterPat[c.toNat - 0x41]'(by omega)
  else if c = 0x2D#8 then cfg.minusPat
  else if h : (0x61 ≤ c.toNat ∧ c.toNat ≤ 0x7A) ∧ cfg.lowercaseMode = .dupUpper then
    cfg.letterPat[c.toNat - 0x61]'(by omega)
  else blankGlyph

end Sys2Proof.Machine
end

