-- ==== Sys2Proof/Machine/Operands.lean ====
section
/-!
DEFINITION. Operand assembly (spec/30_encoding.md R63, R64): the effective length and the glyph of each position for
format `F_TEXT`; `arg8` as an unsigned number for format `F_BYTE`.
-/

namespace Sys2Proof.Machine

/-- `eff_len = min(len, 6)` (R63). -/
def effLen (len : BitVec 3) : Nat := min len.toNat 6

/-- The character code for position `i` (R62: `c_i` is the character for buffer position `i`). -/
def charAt (c0 c1 c2 c3 c4 c5 : Byte) (i : Fin 6) : Byte :=
  match i with
  | 0 => c0
  | 1 => c1
  | 2 => c2
  | 3 => c3
  | 4 => c4
  | 5 => c5

/-- The glyph of position `i` (spec/41_buffer_ops.md R94): `rom(c_i)` below the effective length, blank from there on. -/
def textGlyph (cfg : Config) (len : BitVec 3) (chars : Fin 6 → Byte) (i : Fin 6) : Glyph :=
  if i.val < effLen len then rom cfg (chars i) else blankGlyph

/-- `arg8` as an unsigned number 0..255, no sign and no scaling (R64). -/
def arg8Nat (a : Byte) : Nat := a.toNat

end Sys2Proof.Machine
end

