-- ==== Sys2Proof/Machine/Flags.lean ====
section
/-!
DEFINITION. The flag computations. The only flags of the block are the six overlay bits (spec/10_state.md R22, R25): the
battery bars of `WR_BATT` (spec/41_buffer_ops.md R95) and the decimal point of `WR_DP` (R96).
-/

namespace Sys2Proof.Machine

/-- Clear the battery overlay: `for i in 0..2: BUF[i][7] <- 0`. -/
def SegBuf.clearBatt (b : SegBuf) : SegBuf := b.setOvls isBattPos fun _ => false

/-- Clear the decimal-point overlay: `for i in 3..5: BUF[i][7] <- 0`. -/
def SegBuf.clearDp (b : SegBuf) : SegBuf := b.setOvls isDpPos fun _ => false

/-- Clear the glyph bits of every position, the overlays kept. -/
def SegBuf.clearGlyphs (b : SegBuf) : SegBuf := b.setGlyphs fun _ => blankGlyph

/-- Which battery flag a percentage sets (R95): position 0 above 75, position 1 above 50, position 2 above 25. -/
def battFlag (percent : Byte) (i : Fin 6) : Bool :=
  match i with
  | 0 => decide (75 < arg8Nat percent)
  | 1 => decide (50 < arg8Nat percent)
  | 2 => decide (25 < arg8Nat percent)
  | 3 => false
  | 4 => false
  | 5 => false

/-- Which decimal-point flag a position operand sets (R96): index `6 - pos` for `pos` in 1..3, none otherwise. -/
def dpFlag (pos : Byte) (i : Fin 6) : Bool :=
  decide (1 ≤ arg8Nat pos ∧ arg8Nat pos ≤ 3 ∧ i.val = 6 - arg8Nat pos)

/-- Set the overlay bit of every position of `P`. -/
def SegBuf.raiseOvls (P : Fin 6 → Bool) (b : SegBuf) : SegBuf := b.setOvls P fun _ => true

end Sys2Proof.Machine
end

