-- ==== Sys2Proof/Machine/BufferOps.lean ====
section
/-!
DEFINITION. The meanings of the segment buffer operations and of the operations without an effect
(spec/41_buffer_ops.md R90 to R98, spec/30_encoding.md R66). Each is the effect of the operation's accept cycle; whether a
presented operation is accepted is decided in Machine/Cycle.lean (log 9).
-/

namespace Sys2Proof.Machine

/-- The buffer after `WR_TEXT` (R94): clear the decimal-point overlay and the glyphs, then or the glyphs in. -/
def textBuf (cfg : Config) (len : BitVec 3) (chars : Fin 6 → Byte) (b : SegBuf) : SegBuf :=
  let cleared := b.clearDp.clearGlyphs
  cleared.setGlyphs fun i => glyph (cleared.get i) ||| textGlyph cfg len chars i

/-- The buffer after `WR_BATT` (R95). -/
def battBuf (percent : Byte) (b : SegBuf) : SegBuf := b.clearBatt.raiseOvls (battFlag percent)

/-- The buffer after `WR_DP` (R96). -/
def dpBuf (pos : Byte) (b : SegBuf) : SegBuf := b.clearDp.raiseOvls (dpFlag pos)

/-- `NOP` (R97): no state changes. -/
def execNop (s : State) : Host.Outcome State Fault Refusal := .next s

/-- `CLR_BATT` (R90). -/
def execClrBatt (s : State) : Host.Outcome State Fault Refusal := .next (s.withBuf s.buf.clearBatt)

/-- `CLR_DP` (R91). -/
def execClrDp (s : State) : Host.Outcome State Fault Refusal := .next (s.withBuf s.buf.clearDp)

/-- `CLR_GLYPH` (R92). -/
def execClrGlyph (s : State) : Host.Outcome State Fault Refusal := .next (s.withBuf s.buf.clearGlyphs)

/-- `CLR_ALL` (R93): the three clears in one cycle. -/
def execClrAll (s : State) : Host.Outcome State Fault Refusal :=
  .next (s.withBuf s.buf.clearBatt.clearDp.clearGlyphs)

/-- `WR_TEXT` (R94). -/
def execWrText (len : BitVec 3) (c0 c1 c2 c3 c4 c5 : Byte) (s : State) : Host.Outcome State Fault Refusal :=
  .next (s.withBuf (textBuf s.cfg len (charAt c0 c1 c2 c3 c4 c5) s.buf))

/-- `WR_BATT` (R95). -/
def execWrBatt (percent : Byte) (s : State) : Host.Outcome State Fault Refusal :=
  .next (s.withBuf (battBuf percent s.buf))

/-- `WR_DP` (R96). -/
def execWrDp (pos : Byte) (s : State) : Host.Outcome State Fault Refusal :=
  .next (s.withBuf (dpBuf pos s.buf))

/-- A reserved opcode 0xA or 0xB (R66): exactly as `NOP`. -/
def execReservedAB (_op : BitVec 4) (s : State) : Host.Outcome State Fault Refusal := .next s

/-- A reserved opcode 0xC to 0xF (R66): exactly as `NOP`. -/
def execReservedCF (_op : BitVec 4) (s : State) : Host.Outcome State Fault Refusal := .next s

end Sys2Proof.Machine
end

