-- ==== Sys2Proof/Machine/Packet.lean ====
section
/-!
DEFINITION. The packet encoder (spec/42_packet_ops.md R110 to R118, spec/30_encoding.md R69, R70): two pure functions, and
the byte arrays in which a packet is sent (spec/20_memory.md R42).
-/

namespace Sys2Proof.Machine

/-- `pkt_cmd(code) = { CMD_TAG, code, 0b0000 }` (R110). -/
def pktCmd (cfg : Config) (code : Byte) : BitVec 16 := cfg.cmdTag ++ code ++ 0b0000#4

/-- `word0 = {BUF[5], BUF[4]}` (spec/20_memory.md R44). -/
def word0 (b : SegBuf) : BitVec 16 := b.b5 ++ b.b4

/-- `word1 = {BUF[3], BUF[2]}`. -/
def word1 (b : SegBuf) : BitVec 16 := b.b3 ++ b.b2

/-- `word2 = {BUF[1], BUF[0]}`. -/
def word2 (b : SegBuf) : BitVec 16 := b.b1 ++ b.b0

/-- `pkt_data(BUF) = { DATA_TAG, START_ADDR, word0, word1, word2, 0b0000000 }` (R113). -/
def pktData (cfg : Config) (b : SegBuf) : BitVec 64 :=
  cfg.dataTag ++ startAddr ++ word0 b ++ word1 b ++ word2 b ++ 0b0000000#7

/-- The byte array of an `n`-byte packet value, `B[k] = P[8(n-1-k)+7 : 8(n-1-k)]` (spec/20_memory.md R42). -/
def packetBytes (n : Nat) {w : Nat} (P : BitVec w) : List Byte :=
  (List.range n).map fun k => P.extractLsb' (8 * (n - 1 - k)) 8

/-- The two bytes of a command packet (R111). -/
def cmdBytes (cfg : Config) (code : Byte) : List Byte := packetBytes 2 (pktCmd cfg code)

/-- The eight bytes of a data packet (R114). -/
def dataBytes (cfg : Config) (b : SegBuf) : List Byte := packetBytes 8 (pktData cfg b)

end Sys2Proof.Machine
end

