-- ==== Sys2Proof/Machine/Transmitter.lean ====
section
/-!
DEFINITION. The serial bus transmitter (spec/43_transmitter.md): loading a packet (spec/42_packet_ops.md R112, R115) and the
sequencer, one phase and one pin event per cycle (R132 to R137).
-/

namespace Sys2Proof.Machine

/-- Load a packet, left-aligned, and leave `IDLE` (R112, R115). With `CS_PRESENT = false` nothing happens (R139). -/
def loadPacket (packet : BitVec 64) (n : Nat) (s : State) : State :=
  if s.cfg.csPresent then { s with shreg := packet, nbits := n, bidx := 0, txPhase := .csLo } else s

/-- The wire bit being sent, `shreg[63 - bidx]` (R133). -/
def wireBit (s : State) : Bool := s.shreg.getLsbD (63 - s.bidx)

/-- Phase `CS_LO` (R132). -/
def phaseCsLo (s : State) : State := { emit .csN false s with txPhase := .bitD }

/-- Phase `BIT_D` (R133). -/
def phaseBitD (s : State) : State := { emit .data (wireBit s) s with txPhase := .bitCl }

/-- Phase `BIT_CL` (R134). -/
def phaseBitCl (s : State) : State := { emit .clk false s with txPhase := .bitCh }

/-- Phase `BIT_CH` (R135): the next bit, or the end of the packet. -/
def phaseBitCh (s : State) : State :=
  if s.bidx + 1 < s.nbits then { emit .clk true s with bidx := s.bidx + 1, txPhase := .bitD }
  else { emit .clk true s with txPhase := .csHi }

/-- Phase `CS_HI` (R136): `shreg`, `nbits` and `bidx` keep their values. -/
def phaseCsHi (s : State) : State := { emit .csN true s with txPhase := .idle }

/-- One cycle of the sequencer (R132 to R137); in `IDLE` it emits nothing. -/
def transmit (s : State) : State :=
  match s.txPhase with
  | .idle => s
  | .csLo => phaseCsLo s
  | .bitD => phaseBitD s
  | .bitCl => phaseBitCl s
  | .bitCh => phaseBitCh s
  | .csHi => phaseCsHi s

end Sys2Proof.Machine
end

