-- ==== Sys2Proof/Machine/SendOps.lean ====
section
/-!
DEFINITION. The meanings of the send operations in their accept cycle (spec/42_packet_ops.md R112, R115). The transaction that
follows is the transmitter's (Machine/Transmitter.lean).
-/

namespace Sys2Proof.Machine

/-- `SEND_CMD` (R112): `shreg <- { pkt_cmd(code), zext_48(0) }`, 16 wire bits. -/
def execSendCmd (code : Byte) (s : State) : Host.Outcome State Fault Refusal :=
  .next (loadPacket (pktCmd s.cfg code ++ 0#48) 16 s)

/-- `SEND_BUF` (R115): `shreg <- pkt_data(BUF)`, a snapshot of the buffer, 64 wire bits. -/
def execSendBuf (s : State) : Host.Outcome State Fault Refusal :=
  .next (loadPacket (pktData s.cfg s.buf) 64 s)

end Sys2Proof.Machine
end

