-- ==== Sys2Proof/Machine/Dispatch.lean ====
section
/-!
DEFINITION. One arm per constructor of `Instr`: the operation's meaning.
-/

namespace Sys2Proof.Machine

def exec (i : Instr) (s : State) : Host.Outcome State Fault Refusal :=
  match i with
  | .nop => Sys2Proof.Machine.execNop s
  | .clrBatt => Sys2Proof.Machine.execClrBatt s
  | .clrDp => Sys2Proof.Machine.execClrDp s
  | .clrGlyph => Sys2Proof.Machine.execClrGlyph s
  | .clrAll => Sys2Proof.Machine.execClrAll s
  | .wrText len c0 c1 c2 c3 c4 c5 => Sys2Proof.Machine.execWrText len c0 c1 c2 c3 c4 c5 s
  | .wrBatt percent => Sys2Proof.Machine.execWrBatt percent s
  | .wrDp pos => Sys2Proof.Machine.execWrDp pos s
  | .sendCmd code => Sys2Proof.Machine.execSendCmd code s
  | .sendBuf => Sys2Proof.Machine.execSendBuf s
  | .reservedAB op => Sys2Proof.Machine.execReservedAB op s
  | .reservedCF op => Sys2Proof.Machine.execReservedCF op s

end Sys2Proof.Machine
end

