-- ==== Sys2Proof/Machine/Cycle.lean ====
section
/-!
DEFINITION. One cycle of the block clock (spec/00_scope.md R15) with the priority of spec/60_exceptions.md R154: reset, then the
transmitter, then the acceptance of an operation (spec/10_state.md R31).
-/

namespace Sys2Proof.Machine

/-- An operation is accepted in a cycle where `rst = 0`, `cmd_valid = 1` and `ready = 1` (R31). -/
def State.accepts (s : State) : Bool := !s.portNow.rst && s.portNow.cmdValid && s.ready

/-- One cycle (R154). -/
def cycle (s : State) : Host.Outcome State Fault Refusal :=
  if s.portNow.rst then .next (resetBlock s.nextPort)
  else if s.txPhase ≠ .idle then .next (transmit s.nextPort)
  else if s.portNow.cmdValid then exec (decode s.portNow.cmdWord) s.nextPort
  else .next s.nextPort

/-- The state that presents `w` to a block that will take it in this very cycle: `rst = 0`, `cmd_valid = 1`, and
`tx_phase = IDLE` because a busy block accepts nothing (R31, log 6). -/
def State.presenting (s : State) (w : CmdWord) : State :=
  { s.withPort ⟨false, true, w⟩ with txPhase := .idle }

end Sys2Proof.Machine
end

