-- ==== Sys2Proof/Machine/Step.lean ====
section
/-!
DEFINITION. The step of the machine, one cycle of the block clock, and how a table row's word comes to be the operation that the
next step runs. The block fetches no instructions (spec/10_state.md R27): the word is presented on the command port.
-/

namespace Sys2Proof.Machine

/-- One step: one cycle of the block clock (spec/00_scope.md R15). -/
def step (s : State) : Host.Outcome State Fault Refusal := cycle s

/-- The state with a table row's word on the command port, so that the next step accepts and runs it (log 6). -/
def State.withFetchWord (s : State) (nbits w : Nat) : State :=
  s.presenting (BitVec.ofNat 64 (w % 2 ^ nbits))

end Sys2Proof.Machine
end

