-- ==== Sys2Proof/Machine/Asm.lean ====
section
/-!
DEFINITION. The assembler notation (spec/30_encoding.md R67), the pseudo-operations (R68) and the host's boot sequence
(spec/70_reset_and_hazards.md R174). Notation only (D25): the block never sees a line of text. Lines are lists of
characters; what R67 leaves open about white space and digits is log 15.
-/

namespace Sys2Proof.Machine

/-! ### Operands -/

/-- The code of a character of a text operand, one of 0x20..0x7E (R67). -/
def textCode (c : Char) : Option Byte :=
  if 0x20 ≤ c.toNat ∧ c.toNat ≤ 0x7E then some (BitVec.ofNat 8 c.toNat) else none

/-- The codes of a text operand. -/
def textCodes : List Char → Option (List Byte)
  | [] => some []
  | c :: cs =>
    match textCode c, textCodes cs with
    | some b, some bs => some (b :: bs)
    | _, _ => none

/-- `WR_TEXT "s"` (R67): 0 to 6 characters, `len = length(s)`, `c_i = code(s[i])` for `i < len` and 0x00 from there on. -/
def assembleText (s : List Char) : Option Instr :=
  match textCodes s with
  | some bs =>
    if bs.length ≤ 6 then
      some (.wrText (BitVec.ofNat 3 bs.length) (bs.getD 0 0x00#8) (bs.getD 1 0x00#8) (bs.getD 2 0x00#8)
        (bs.getD 3 0x00#8) (bs.getD 4 0x00#8) (bs.getD 5 0x00#8))
    else none
  | none => none

/-- A decimal digit's value. -/
def decDigit (c : Char) : Option Nat :=
  if 0x30 ≤ c.toNat ∧ c.toNat ≤ 0x39 then some (c.toNat - 0x30) else none

/-- A hexadecimal digit's value, in either case. -/
def hexDigit (c : Char) : Option Nat :=
  if 0x30 ≤ c.toNat ∧ c.toNat ≤ 0x39 then some (c.toNat - 0x30)
  else if 0x41 ≤ c.toNat ∧ c.toNat ≤ 0x46 then some (c.toNat - 0x41 + 10)
  else if 0x61 ≤ c.toNat ∧ c.toNat ≤ 0x66 then some (c.toNat - 0x61 + 10)
  else none

/-- The number a list of digits writes, most significant first, from an accumulated value. -/
def digitsValue (base : Nat) (digit : Char → Option Nat) : List Char → Nat → Option Nat
  | [], acc => some acc
  | c :: cs, acc =>
    match digit c with
    | some d => digitsValue base digit cs (base * acc + d)
    | none => none

/-- A number, decimal, or hexadecimal with `0x` (R67). -/
def parseNumber : List Char → Option Nat
  | [] => none
  | ['0', 'x'] => none
  | '0' :: 'x' :: cs => digitsValue 16 hexDigit cs 0
  | cs => digitsValue 10 decDigit cs 0

/-- The number a list of digits stands for in a base, most significant first. -/
def numberOf (base : Nat) (ds : List Nat) : Nat := ds.foldl (fun acc d => base * acc + d) 0

/-- The character of a hexadecimal digit, the upper-case one where the flag says so. -/
def hexChar (d : Fin 16 × Bool) : Char := if d.2 then (Nat.digitChar d.1.val).toUpper else Nat.digitChar d.1.val

/-- The texts of a number (R67: "decimal, or hex with `0x`"): one decimal digit or more, or `0x` and one hexadecimal digit or
more. The parser does not read this definition; claims compare it with the parser. Leading zeros and the case of the
digits are log 15. -/
def NumberText (text : List Char) (n : Nat) : Prop :=
  (∃ ds : List (Fin 10), ds ≠ [] ∧ text = ds.map (fun d => Nat.digitChar d.val) ∧ n = numberOf 10 (ds.map Fin.val)) ∨
    ∃ ds : List (Fin 16 × Bool), ds ≠ [] ∧ text = '0' :: 'x' :: ds.map hexChar ∧ n = numberOf 16 (ds.map fun d => d.1.val)

/-- A number operand, 0..255 (R67). -/
def parseByte (cs : List Char) : Option Byte :=
  match parseNumber cs with
  | some n => if n ≤ 255 then some (BitVec.ofNat 8 n) else none
  | none => none

/-- The characters between the quotes of a text operand, and what follows the closing quote, the last quote of the line. -/
def splitQuoted : List Char → Option (List Char × List Char)
  | '"' :: rest =>
    let after := (rest.reverse.takeWhile (· ≠ '"')).reverse
    match rest.reverse.dropWhile (· ≠ '"') with
    | _ :: before => some (before.reverse, after)
    | [] => none
  | _ => none

/-- The characters of a text operand that ends its line. -/
def parseQuoted (cs : List Char) : Option (List Char) :=
  match splitQuoted cs with
  | some (s, []) => some s
  | _ => none

/-! ### Lines -/

/-- A line of R67 or R68. -/
inductive AsmLine where
  /-- An operation of the block (R67). -/
  | op (i : Instr)
  /-- `DISPLAY_ON` (R68). -/
  | displayOn
  /-- `SHOW_TEXT "s"` (R68), its text assembled. -/
  | showText (text : Instr)
  /-- `CLEAR` (R68). -/
  | clear
  /-- `SHOW_FIXED "s", p` (R68), its text assembled. -/
  | showFixed (text : Instr) (p : Byte)
  deriving DecidableEq, Repr

/-- The block operations a line stands for: itself, or the expansion of R68. -/
def AsmLine.expand : AsmLine → List Instr
  | .op i => [i]
  | .displayOn => [.sendCmd 0x06#8]
  | .showText text => [text, .sendBuf]
  | .clear => [.clrAll, .sendBuf]
  | .showFixed text p => [text, .wrDp p, .sendBuf]

/-- A line without an operand. -/
def parsePlain (mn : List Char) : Option AsmLine :=
  if mn = ['N', 'O', 'P'] then some (.op .nop)
  else if mn = ['C', 'L', 'R', '_', 'B', 'A', 'T', 'T'] then some (.op .clrBatt)
  else if mn = ['C', 'L', 'R', '_', 'D', 'P'] then some (.op .clrDp)
  else if mn = ['C', 'L', 'R', '_', 'G', 'L', 'Y', 'P', 'H'] then some (.op .clrGlyph)
  else if mn = ['C', 'L', 'R', '_', 'A', 'L', 'L'] then some (.op .clrAll)
  else if mn = ['S', 'E', 'N', 'D', '_', 'B', 'U', 'F'] then some (.op .sendBuf)
  else if mn = ['D', 'I', 'S', 'P', 'L', 'A', 'Y', '_', 'O', 'N'] then some .displayOn
  else if mn = ['C', 'L', 'E', 'A', 'R'] then some .clear
  else none

/-- The operand of `SHOW_FIXED`: a quoted text, a comma and a space, a number. -/
def parseFixed (operand : List Char) : Option AsmLine :=
  match splitQuoted operand with
  | some (s, ',' :: ' ' :: num) =>
    match assembleText s, parseByte num with
    | some text, some p => some (.showFixed text p)
    | _, _ => none
  | _ => none

/-- A line with an operand. -/
def parseWith (mn operand : List Char) : Option AsmLine :=
  if mn = ['W', 'R', '_', 'B', 'A', 'T', 'T'] then (parseByte operand).map fun n => .op (.wrBatt n)
  else if mn = ['W', 'R', '_', 'D', 'P'] then (parseByte operand).map fun n => .op (.wrDp n)
  else if mn = ['S', 'E', 'N', 'D', '_', 'C', 'M', 'D'] then (parseByte operand).map fun n => .op (.sendCmd n)
  else if mn = ['W', 'R', '_', 'T', 'E', 'X', 'T'] then ((parseQuoted operand).bind assembleText).map .op
  else if mn = ['S', 'H', 'O', 'W', '_', 'T', 'E', 'X', 'T'] then ((parseQuoted operand).bind assembleText).map .showText
  else if mn = ['S', 'H', 'O', 'W', '_', 'F', 'I', 'X', 'E', 'D'] then parseFixed operand
  else none

/-- One line, `MNEMONIC [operand]` (R67), with one space between the two (log 15). -/
def parseLine (line : List Char) : Option AsmLine :=
  match line.dropWhile (· ≠ ' ') with
  | [] => parsePlain (line.takeWhile (· ≠ ' '))
  | _ :: operand => parseWith (line.takeWhile (· ≠ ' ')) operand

/-- The command words of a line. -/
def assembleLine (line : List Char) : Option (List CmdWord) := (parseLine line).map fun l => l.expand.map encode

/-! ### The host's boot sequence (spec/70_reset_and_hazards.md R174) -/

/-- `INIT_SEQ` (D17): the command codes of the chip's initialization, host data without a value in the spec. -/
structure InitSeq where
  bias : Byte
  oscillator : Byte
  systemEnable : Byte
  biasGeneratorEnable : Byte
  deriving DecidableEq, Repr

/-- The initialization commands in the order of R174. -/
def InitSeq.ops (q : InitSeq) : List Instr :=
  [.sendCmd q.bias, .sendCmd q.oscillator, .sendCmd q.systemEnable, .sendCmd q.biasGeneratorEnable]

end Sys2Proof.Machine
end

