-- ==== Sys2Proof/Machine/Observation.lean ====
section
/-!
DEFINITION. The bus observation as the spec states it for a whole transaction (spec/43_transmitter.md R130, R131, R138), and the
run-to-completion reading of an operation (spec/20_memory.md R50, spec/70_reset_and_hazards.md R180): the buffer it leaves,
the events it makes and the cycles it takes. The cycle-by-cycle machine never calls these; claims compare it with them.
-/

namespace Sys2Proof.Machine

/-! ### One transaction (R130) -/

/-- The three events of one wire bit: data to the bit, clock low, clock high. -/
def bitEvents (bit : Bool) : List BusEvent := [.emit .data bit, .emit .clk false, .emit .clk true]

/-- The event sequence of one transaction for the packet `P` of `n` wire bits, most significant bit first (R130). -/
def transactionEvents {n : Nat} (P : BitVec n) : List BusEvent :=
  (.emit .csN false :: (List.range n).flatMap fun i => bitEvents (P.getLsbD (n - 1 - i))) ++ [.emit .csN true]

/-! ### Pin levels read off an observation (spec/00_scope.md R11, spec/70_reset_and_hazards.md R172) -/

/-- The pin levels after one event; after a `RESET` marker they are those of R171. -/
def applyEvent (p : Pins) (e : BusEvent) : Pins :=
  match e with
  | .emit pin level => p.set pin level
  | .reset => Pins.idle

/-- The pin levels after an observation that starts from reset. -/
def pinsAfter (obs : List BusEvent) : Pins := obs.foldl applyEvent Pins.idle

/-- The levels a wire observer sees, one entry for each event (R131). -/
def waveform (p : Pins) : List BusEvent → List Pins
  | [] => []
  | e :: es => applyEvent p e :: waveform (applyEvent p e) es

/-- An event that a wire observer can see: it changes a level (R131). -/
def visible (p : Pins) (e : BusEvent) : Bool := decide (applyEvent p e ≠ p)

/-- The levels put on `DATA`, in order: the wire bits of a transaction. -/
def dataLevels (es : List BusEvent) : List Bool :=
  es.filterMap fun e =>
    match e with
    | .emit .data level => some level
    | .emit .csN _ => none
    | .emit .clk _ => none
    | .reset => none

/-- The bits of a byte, bit 7 first (spec/20_memory.md R42). -/
def byteBits (B : Byte) : List Bool := (List.range 8).map fun k => B.getLsbD (7 - k)

/-- Wall-clock time of a number of cycles (spec/70_reset_and_hazards.md R181), in the unit of `T_CYCLE` (log 14). -/
def wallTime (cfg : Config) (cycles : Nat) : Nat := cycles * cfg.tCycle

/-! ### An operation run to completion (spec/20_memory.md R50) -/

/-- The buffer an operation leaves (spec/41_buffer_ops.md R90 to R97; sends and reserved opcodes leave it, R23). -/
def bufAfter (cfg : Config) (i : Instr) (b : SegBuf) : SegBuf :=
  match i with
  | .nop => b
  | .clrBatt => b.clearBatt
  | .clrDp => b.clearDp
  | .clrGlyph => b.clearGlyphs
  | .clrAll => ⟨0#8, 0#8, 0#8, 0#8, 0#8, 0#8⟩
  | .wrText len c0 c1 c2 c3 c4 c5 => textBuf cfg len (charAt c0 c1 c2 c3 c4 c5) b
  | .wrBatt percent => battBuf percent b
  | .wrDp pos => dpBuf pos b
  | .sendCmd _ => b
  | .sendBuf => b
  | .reservedAB _ => b
  | .reservedCF _ => b

/-- The pin events an operation makes (R131): one transaction for a send with a chip-select, none otherwise (R139). -/
def opEvents (cfg : Config) (i : Instr) (b : SegBuf) : List BusEvent :=
  match i with
  | .nop => []
  | .clrBatt => []
  | .clrDp => []
  | .clrGlyph => []
  | .clrAll => []
  | .wrText _ _ _ _ _ _ _ => []
  | .wrBatt _ => []
  | .wrDp _ => []
  | .sendCmd code => if cfg.csPresent then transactionEvents (pktCmd cfg code) else []
  | .sendBuf => if cfg.csPresent then transactionEvents (pktData cfg b) else []
  | .reservedAB _ => []
  | .reservedCF _ => []

/-- Cycles from the accept cycle to the first cycle with `ready = 1` again (spec/70_reset_and_hazards.md R180). -/
def opCycles (cfg : Config) (i : Instr) : Nat :=
  match i with
  | .nop => 1
  | .clrBatt => 1
  | .clrDp => 1
  | .clrGlyph => 1
  | .clrAll => 1
  | .wrText _ _ _ _ _ _ _ => 1
  | .wrBatt _ => 1
  | .wrDp _ => 1
  | .sendCmd _ => if cfg.csPresent then 51 else 1
  | .sendBuf => if cfg.csPresent then 195 else 1
  | .reservedAB _ => 1
  | .reservedCF _ => 1

/-- Cycles of a list of command words, each presented as soon as the block is ready. -/
def wordsCycles (cfg : Config) : List CmdWord → Nat
  | [] => 0
  | w :: ws => opCycles cfg (decode w) + wordsCycles cfg ws

/-- The buffer after a list of command words, each run to completion in order. -/
def wordsBuf (cfg : Config) : List CmdWord → SegBuf → SegBuf
  | [], b => b
  | w :: ws, b => wordsBuf cfg ws (bufAfter cfg (decode w) b)

/-- The events of a list of command words, each run to completion in order. -/
def wordsEvents (cfg : Config) : List CmdWord → SegBuf → List BusEvent
  | [], _ => []
  | w :: ws, b => opEvents cfg (decode w) b ++ wordsEvents cfg ws (bufAfter cfg (decode w) b)

/-! ### What an operation reads and writes (spec/10_state.md R23) -/

/-- The bits of `BUF[i]` that an operation may write. -/
def writeMask (op : Instr) (i : Fin 6) : Byte :=
  match op with
  | .nop => 0x00#8
  | .clrBatt => if isBattPos i then 0x80#8 else 0x00#8
  | .clrDp => if isDpPos i then 0x80#8 else 0x00#8
  | .clrGlyph => 0x7F#8
  | .clrAll => 0xFF#8
  | .wrText _ _ _ _ _ _ _ => if isDpPos i then 0xFF#8 else 0x7F#8
  | .wrBatt _ => if isBattPos i then 0x80#8 else 0x00#8
  | .wrDp _ => if isDpPos i then 0x80#8 else 0x00#8
  | .sendCmd _ => 0x00#8
  | .sendBuf => 0x00#8
  | .reservedAB _ => 0x00#8
  | .reservedCF _ => 0x00#8

end Sys2Proof.Machine
end

