-- ==== Sys2Proof/Machine/HostAgent.lean ====
section
/-!
DEFINITION. The host as the other agent (spec/00_scope.md R14): a host that keeps its duty (spec/70_reset_and_hazards.md R178)
presents each operation of a list as soon as the one before it has been accepted, and holds it until the block takes it
(spec/95_test_vectors.md section 3: "The host presents each operation as soon as `ready = 1`"; log 16).
-/

namespace Sys2Proof.Machine

/-- What the host drives in a cycle: the next operation of its list, held, or nothing when the list is done. -/
def hostPort : List CmdWord → PortIn
  | [] => PortIn.quiet
  | w :: _ => ⟨false, true, w⟩

/-- What is left of the host's list after a cycle: an operation leaves it when the block was ready to take it. -/
def hostRest (ws : List CmdWord) (s : State) : List CmdWord := if s.ready then ws.tail else ws

/-- `k` cycles of host and block together. -/
def hostRun : Nat → List CmdWord → State → Host.Outcome (List CmdWord × State) Fault Refusal
  | 0, ws, s => .next (ws, s)
  | k + 1, ws, s =>
    match step (s.withPort (hostPort ws)) with
    | .next t => hostRun k (hostRest ws s) t
    | .fault r => .fault r
    | .refused r => .refused r

end Sys2Proof.Machine
end

