-- ==== Sys2Proof/Safety.lean ====
section
/-!
DEFINITION. What counts as a safe run, in the terms claims use: a run that never stops (spec/60_exceptions.md R152), the invariant
of the block's states (spec/10_state.md R34, spec/43_transmitter.md R130 to R137, R142), and what a host owes
(spec/70_reset_and_hazards.md R178).
-/

namespace Sys2Proof.Machine

/-- `k` steps of the machine, stopping at the first fault or refusal: the interface's run. -/
def run (k : Nat) (s : State) : Host.Outcome State Fault Refusal := Sys2Proof.core.run k s

/-- `k` steps from `s` meet neither a fault nor a refusal. -/
def SafeRun (k : Nat) (s : State) : Prop := ∃ t, run k s = .next t

/-- The meanings of a list of operations, one after the other. -/
def execSeq : List Instr → State → Host.Outcome State Fault Refusal
  | [], s => .next s
  | i :: is, s =>
    match exec i s with
    | .next t => execSeq is t
    | .fault r => .fault r
    | .refused r => .refused r

/-- What the shift register holds during a transaction: a command packet, left-aligned (spec/42_packet_ops.md R112), or the data
packet of the buffer as it stands (R115; the buffer cannot change before the transaction ends, spec/20_memory.md R51). -/
abbrev State.PacketLoaded (s : State) : Prop :=
  s.cfg.csPresent = true ∧
    ((s.nbits = 16 ∧ s.shreg = pktCmd s.cfg (s.shreg.extractLsb' 52 8) ++ 0#48) ∨
      (s.nbits = 64 ∧ s.shreg = pktData s.cfg s.buf))

/-- The invariant of the block: the pins hold the levels of the last events, each phase has its pin levels, and a transaction
sends a well-formed packet, at a bit index inside it. -/
abbrev State.Inv (s : State) : Prop :=
  s.pins = pinsAfter s.obs ∧
  (s.txPhase = .idle → s.pins = Pins.idle) ∧
  (s.txPhase = .csLo → s.pins = Pins.idle ∧ s.bidx = 0) ∧
  (s.txPhase = .bitD → s.pins.csN = false ∧ s.pins.clk = true) ∧
  (s.txPhase = .bitCl → s.pins = ⟨false, true, wireBit s⟩) ∧
  (s.txPhase = .bitCh → s.pins = ⟨false, false, wireBit s⟩) ∧
  (s.txPhase = .csHi → s.pins = ⟨false, true, wireBit s⟩ ∧ s.bidx + 1 = s.nbits) ∧
  (s.txPhase ≠ .idle → s.PacketLoaded ∧ s.bidx < s.nbits)

/-- No reset in the next `k` cycles. -/
abbrev State.noReset (s : State) (k : Nat) : Prop := ∀ p ∈ s.inputs.take k, p.rst = false

/-- The host's duty over the next `k` cycles (R178): while an operation is presented and the block is not ready, `cmd_valid`
stays 1 in the next cycle. -/
def hostKeepsDuty : Nat → State → Bool
  | 0, _ => true
  | k + 1, s =>
    match step s with
    | .next t => (!(s.portNow.cmdValid && !s.ready) || t.portNow.cmdValid) && hostKeepsDuty k t
    | .fault _ => false
    | .refused _ => false

end Sys2Proof.Machine
end

