-- ==== Sys2Proof/Certificates/Slice0/Obligations.lean ====
section
/-!
DEFINITION. The statements for the provers, from the numbered rules of spec/. Where a rule rests on a decision or an inference that
the spec marks as its own, the docstring names it. `s.nextPort` is `s` with the host's signals moved on to the next cycle (log 4):
every step that is not a reset does that to the ports and no more.
-/

open Sys2Proof Sys2Proof.Machine

/-! ### Reset and the interface -/

/-- spec/10_state.md R24 (the spec's decision D16): every buffer entry is 0x00 after reset, the state that `CLR_ALL` leaves. -/
def Obligations.ResetBufferIsWhatClearAllLeaves : Prop :=
  (∀ i, State.reset.buf.get i = 0x00#8) ∧
  ∀ s, exec .clrAll s = .next { s with buf := State.reset.buf }

/-- spec/70_reset_and_hazards.md R171 (decisions D15, D16), row by row, and spec/10_state.md R32 for `ready`. The values of `cfg`,
`obs` and `inputs` in `State.reset` are the model's choices (log 2, 3, 4, 5); this statement says nothing of them. -/
def Obligations.ResetLeavesTheRegistersOfTheResetTable : Prop :=
  State.reset.buf = ⟨0x00#8, 0x00#8, 0x00#8, 0x00#8, 0x00#8, 0x00#8⟩ ∧
  State.reset.txPhase = .idle ∧ State.reset.ready = true ∧
  State.reset.shreg = 0#64 ∧ State.reset.nbits = 0 ∧ State.reset.bidx = 0 ∧
  State.reset.pins.csN = true ∧ State.reset.pins.clk = true ∧ State.reset.pins.data = false

/-- spec/70_reset_and_hazards.md R170, R172, R173 (decisions D15, D16, D17, D39): a cycle with `rst = 1`, from any state, a
transaction in progress or not, leaves the registers of R171, appends one `RESET` marker in place of pin events and accepts
nothing; and as long as the host then presents nothing, nothing more is sent, so the rest of a cut-off transaction never
happens. (The parameters stay by R7.) -/
def Obligations.ResetCutsOffATransactionAndSendsNothing : Prop :=
  ∀ s : State, s.portNow.rst = true →
    (∃ t, step s = .next t ∧ t.obs = s.obs ++ [.reset] ∧ t.cfg = s.cfg ∧
      t.buf = State.reset.buf ∧ t.txPhase = .idle ∧ t.shreg = 0#64 ∧ t.nbits = 0 ∧ t.bidx = 0 ∧ t.pins = Pins.idle) ∧
    ∀ k, (∀ p ∈ s.inputs.tail.take k, p.rst = false ∧ p.cmdValid = false) →
      ∃ t, run (k + 1) s = .next t ∧ t.obs = s.obs ++ [.reset] ∧ t.pins = Pins.idle ∧
        t.buf = State.reset.buf ∧ t.ready = true

/-- spec/60_exceptions.md R154 (decisions D2, D37): reset wins over everything; otherwise a busy transmitter performs its phase's
event, `transmit`, and no operation is accepted; otherwise a presented operation is accepted. Which event each phase makes is
`EachPhaseMakesItsOneEvent`. -/
def Obligations.ResetThenTransmitterThenAcceptance : Prop :=
  ∀ s : State,
    (s.portNow.rst = true → step s = .next (resetBlock s.nextPort)) ∧
    (s.portNow.rst = false → s.txPhase ≠ .idle →
      step s = .next (transmit s.nextPort) ∧
      ∃ pin level, ∃ t, step s = .next t ∧ t.obs = s.obs ++ [.emit pin level] ∧ t.buf = s.buf ∧ t.shreg = s.shreg) ∧
    (s.portNow.rst = false → s.txPhase = .idle → s.portNow.cmdValid = true →
      step s = exec (decode s.portNow.cmdWord) s.nextPort) ∧
    (s.portNow.rst = false → s.txPhase = .idle → s.portNow.cmdValid = false → step s = .next s.nextPort)

/-- A step runs the accepted operation (spec/10_state.md R31): when the word on the port decodes to `i` and the block accepts it, the
step is the meaning of `i` at the same state with the port moved on; and a table row's word, or the encoding of a
well-formed operation, is so presented by `withFetchWord` and `presenting` (log 6). -/
def Obligations.StepRunsTheAcceptedOperation : Prop :=
  (∀ (s : State) (i : Instr), s.accepts = true → decode s.portNow.cmdWord = i → step s = exec i s.nextPort) ∧
  (∀ (s : State) (w : Nat) (i : Instr), decodeTableWord 64 w = some i →
    step (s.withFetchWord 64 w) = exec i { s with txPhase := .idle, inputs := s.inputs.tail }) ∧
  (∀ (s : State) (i : Instr), i.wellFormed = true →
    step (s.presenting (encode i)) = exec i { s with txPhase := .idle, inputs := s.inputs.tail })

/-- spec/10_state.md R33 (decision D21): `buf_rd[8i+7 : 8i] = BUF[i]`, and a buffer operation accepted in a cycle shows in `buf_rd`
from the next cycle, the current cycle's `buf_rd` being that of the state before. -/
def Obligations.BufRdShowsEveryBufferByte : Prop :=
  (∀ (s : State) (i : Fin 6), s.bufRd.extractLsb' (8 * i.val) 8 = s.buf.get i) ∧
  (∀ s : State, s.accepts = true →
    ∃ t, step s = .next t ∧
      ∀ i : Fin 6, t.bufRd.extractLsb' (8 * i.val) 8 =
        (bufAfter s.cfg (decode s.portNow.cmdWord) s.buf).get i)

/-- spec/70_reset_and_hazards.md R177, spec/43_transmitter.md R137 (decisions D2, D14, D32): while the transmitter is busy, what the host
presents on the command port has no effect at all, now or later. -/
def Obligations.BusyBlockIgnoresTheCommandPort : Prop :=
  ∀ (s : State) (p : PortIn), s.ready = false → p.rst = false →
    step (s.withPort p) = step (s.withPort PortIn.quiet) ∧
    ∃ t, step (s.withPort p) = .next t ∧ t.buf = s.buf

/-- spec/60_exceptions.md R152, derived there, with spec/00_scope.md R7: every run of any length goes on, without a fault or a refusal
(the model has none, log 12), and the parameters the machine was built with, a field of State (log 1), never change. -/
def Obligations.EveryRunGoesOnWithTheSameParameters : Prop :=
  ∀ (k : Nat) (s : State), SafeRun k s ∧ ∀ t, run k s = .next t → t.cfg = s.cfg

/-! ### Encoding -/

/-- Words written out from the encoding of spec/30_encoding.md R60 to R62 decode to their operations (the vectors of
spec/95_test_vectors.md section 2.2). -/
def Obligations.WrittenOutWordsDecode : Prop :=
  decode 0x0FFFFFFFFFFFFFFF#64 = .nop ∧
  decode 0x1000000000000000#64 = .clrBatt ∧
  decode 0x2000000000000000#64 = .clrDp ∧
  decode 0x3000000000000000#64 = .clrGlyph ∧
  decode 0x4ABCDEF012345678#64 = .clrAll ∧
  decode 0x560035343332312D#64 = .wrText 6#3 0x2D#8 0x31#8 0x32#8 0x33#8 0x34#8 0x35#8 ∧
  decode 0x600000000000003C#64 = .wrBatt 60#8 ∧
  decode 0x7FFFFFFFFFFFFF02#64 = .wrDp 2#8 ∧
  decode 0x8000000000000006#64 = .sendCmd 0x06#8 ∧
  decode 0x9000000000000000#64 = .sendBuf

/-- Decode and encode agree: every well-formed operation, every operand at every value, comes back from its encoding
(spec/30_encoding.md R60 to R64). -/
def Obligations.DecodeOfEncodeIsTheOperation : Prop :=
  ∀ i : Instr, i.wellFormed = true → decode (encode i) = i

/-- The other direction, spec/30_encoding.md R65 (decision D4): every word decodes to a well-formed operation, whose encoding is the
word with its ignored bits cleared, so two words that agree on the bits their format reads are the same operation. -/
def Obligations.IgnoredBitsHaveNoEffect : Prop :=
  (∀ w : CmdWord, (decode w).wellFormed = true ∧ encode (decode w) = w &&& usedBits w) ∧
  ∀ v w : CmdWord, v &&& usedBits v = w &&& usedBits w → decode v = decode w

/-- spec/30_encoding.md R61 (decision D3) against spec/opcode_table.json: every word belongs to exactly one row of the table, that of
the operation it decodes to. -/
def Obligations.TableRowsPartitionTheWords : Prop :=
  ∀ w : CmdWord, opcodeRows.filter (fun r => r.covers w) = [(decode w).row]

/-! ### The character encoder ROM -/

/-- spec/40_rom.md R80 (its decisions D6, D7, D9 for unsupported codes, space and lowercase), class by class, for every choice of the
parameters. -/
def Obligations.RomMapsEachCodeAsTheDefinitionSays : Prop :=
  ∀ cfg : Config,
    rom cfg 0x20#8 = 0b0000000#7 ∧
    (∀ d : Fin 10, rom cfg (BitVec.ofNat 8 (0x30 + d.val)) = cfg.digitPat[d]) ∧
    (∀ l : Fin 26, rom cfg (BitVec.ofNat 8 (0x41 + l.val)) = cfg.letterPat[l]) ∧
    rom cfg 0x2D#8 = cfg.minusPat ∧
    (∀ l : Fin 26, cfg.lowercaseMode = .dupUpper → rom cfg (BitVec.ofNat 8 (0x61 + l.val)) = cfg.letterPat[l]) ∧
    (∀ c : Byte, ¬(0x30 ≤ c.toNat ∧ c.toNat ≤ 0x39) → ¬(0x41 ≤ c.toNat ∧ c.toNat ≤ 0x5A) → c ≠ 0x2D#8 →
      ¬(0x61 ≤ c.toNat ∧ c.toNat ≤ 0x7A ∧ cfg.lowercaseMode = .dupUpper) → rom cfg c = 0b0000000#7)

/-- The worked examples of spec/40_rom.md R88 under the default patterns of R84, which the spec takes from general knowledge (log 2). -/
def Obligations.RomWorkedExamplesUnderTheDefaults : Prop :=
  ∀ cfg : Config, cfg.digitPat = Config.defaultDigitPat → cfg.minusPat = 0x02#7 →
    rom cfg 0x38#8 = 0x7F#7 ∧ rom cfg 0x2D#8 = 0x02#7 ∧ rom cfg 0x20#8 = 0x00#7 ∧ rom cfg 0x2E#8 = 0x00#7 ∧
    rom cfg 0x00#8 = 0x00#7 ∧ rom cfg 0xFF#8 = 0x00#7 ∧
    (cfg.lowercaseMode = .blank → rom cfg 0x61#8 = 0x00#7) ∧
    (cfg.lowercaseMode = .dupUpper → rom cfg 0x61#8 = rom cfg 0x41#8)

/-! ### Segment buffer operations: encoding, result, frame, corner cases, example -/

/-- spec/41_buffer_ops.md R90, `CLR_BATT`, whole: it completes in every state, clears bit 7 of positions 0 to 2, and changes nothing
else of the machine. -/
def Obligations.ClrBattClearsTheBatteryFlagsOnly : Prop :=
  (∀ w, opField w = 0x1#4 → decode w = .clrBatt) ∧
  (∀ s : State, ∃ b, exec .clrBatt s = .next { s with buf := b } ∧
    (∀ i : Fin 6, glyph (b.get i) = glyph (s.buf.get i)) ∧
    (∀ i : Fin 6, i.val < 3 → ovl (b.get i) = false) ∧
    (∀ i : Fin 6, 3 ≤ i.val → ovl (b.get i) = ovl (s.buf.get i)) ∧
    ((∀ i : Fin 6, i.val < 3 → ovl (s.buf.get i) = false) → b = s.buf)) ∧
  (∀ s : State, s.buf = ⟨0x80#8, 0xFF#8, 0x7F#8, 0x80#8, 0x00#8, 0x00#8⟩ →
    exec .clrBatt s = .next { s with buf := ⟨0x00#8, 0x7F#8, 0x7F#8, 0x80#8, 0x00#8, 0x00#8⟩ })

/-- spec/41_buffer_ops.md R91, `CLR_DP`, whole. -/
def Obligations.ClrDpClearsTheDecimalPointFlagsOnly : Prop :=
  (∀ w, opField w = 0x2#4 → decode w = .clrDp) ∧
  (∀ s : State, ∃ b, exec .clrDp s = .next { s with buf := b } ∧
    (∀ i : Fin 6, glyph (b.get i) = glyph (s.buf.get i)) ∧
    (∀ i : Fin 6, 3 ≤ i.val → ovl (b.get i) = false) ∧
    (∀ i : Fin 6, i.val < 3 → ovl (b.get i) = ovl (s.buf.get i)) ∧
    exec .clrDp { s with buf := b } = .next { s with buf := b }) ∧
  (∀ s : State, s.buf = ⟨0x80#8, 0x00#8, 0x00#8, 0x80#8, 0xE0#8, 0xFF#8⟩ →
    exec .clrDp s = .next { s with buf := ⟨0x80#8, 0x00#8, 0x00#8, 0x00#8, 0x60#8, 0x7F#8⟩ })

/-- spec/41_buffer_ops.md R92, `CLR_GLYPH`, whole. -/
def Obligations.ClrGlyphClearsTheGlyphsOnly : Prop :=
  (∀ w, opField w = 0x3#4 → decode w = .clrGlyph) ∧
  (∀ s : State, ∃ b, exec .clrGlyph s = .next { s with buf := b } ∧
    (∀ i : Fin 6, glyph (b.get i) = 0b0000000#7 ∧ ovl (b.get i) = ovl (s.buf.get i)) ∧
    exec .clrGlyph { s with buf := b } = .next { s with buf := b }) ∧
  (∀ s : State, s.buf = ⟨0xFF#8, 0xFF#8, 0xFF#8, 0xFF#8, 0xFF#8, 0xFF#8⟩ →
    exec .clrGlyph s = .next { s with buf := ⟨0x80#8, 0x80#8, 0x80#8, 0x80#8, 0x80#8, 0x80#8⟩ }) ∧
  (∀ s : State, s.buf = ⟨0x7D#8, 0xE0#8, 0x3E#8, 0xFA#8, 0x63#8, 0x5B#8⟩ →
    exec .clrGlyph s = .next { s with buf := ⟨0x00#8, 0x80#8, 0x00#8, 0x80#8, 0x00#8, 0x00#8⟩ })

/-- spec/41_buffer_ops.md R93 (decision D30), `CLR_ALL`, whole: every byte is 0x00 afterwards whatever it was, which is what the three
clears do one after the other, and `buf_rd` reads zero from the next cycle. -/
def Obligations.ClrAllZeroesTheBufferOnly : Prop :=
  (∀ w, opField w = 0x4#4 → decode w = .clrAll) ∧
  (∀ s : State, exec .clrAll s = .next { s with buf := ⟨0x00#8, 0x00#8, 0x00#8, 0x00#8, 0x00#8, 0x00#8⟩ } ∧
    execSeq [.clrBatt, .clrDp, .clrGlyph] s = exec .clrAll s) ∧
  (∀ s : State, s.accepts = true → decode s.portNow.cmdWord = .clrAll → ∃ t, step s = .next t ∧ t.bufRd = 0#48)

/-- spec/41_buffer_ops.md R94 (decision D5), `WR_TEXT`, whole: glyph `i` is the ROM's pattern of `c_i` below the effective length and
blank from there on, the decimal-point flags are cleared, the battery flags kept, nothing else changes; a `len` of 0 blanks
every glyph, a `len` of 7 acts as 6, a repetition changes nothing; the example under the default patterns (log 2). -/
def Obligations.WrTextWritesTheGlyphsAndClearsTheDecimalPoint : Prop :=
  (∀ w, opField w = 0x5#4 → decode w = .wrText (w.extractLsb' 56 3) (w.extractLsb' 0 8) (w.extractLsb' 8 8)
    (w.extractLsb' 16 8) (w.extractLsb' 24 8) (w.extractLsb' 32 8) (w.extractLsb' 40 8)) ∧
  (∀ (s : State) (len : BitVec 3) (c0 c1 c2 c3 c4 c5 : Byte), ∃ b,
    exec (.wrText len c0 c1 c2 c3 c4 c5) s = .next { s with buf := b } ∧
    (∀ i : Fin 6, i.val < min len.toNat 6 → glyph (b.get i) = rom s.cfg (charAt c0 c1 c2 c3 c4 c5 i)) ∧
    (∀ i : Fin 6, min len.toNat 6 ≤ i.val → glyph (b.get i) = 0b0000000#7) ∧
    (∀ i : Fin 6, i.val < 3 → ovl (b.get i) = ovl (s.buf.get i)) ∧
    (∀ i : Fin 6, 3 ≤ i.val → ovl (b.get i) = false) ∧
    exec (.wrText len c0 c1 c2 c3 c4 c5) { s with buf := b } = .next { s with buf := b }) ∧
  (∀ (s : State) (c0 c1 c2 c3 c4 c5 : Byte),
    exec (.wrText 7#3 c0 c1 c2 c3 c4 c5) s = exec (.wrText 6#3 c0 c1 c2 c3 c4 c5) s) ∧
  (∀ s : State, s.cfg.digitPat = Config.defaultDigitPat → s.cfg.minusPat = 0x02#7 →
    s.buf = ⟨0x00#8, 0x00#8, 0x00#8, 0x00#8, 0x00#8, 0x00#8⟩ →
    exec (.wrText 6#3 0x2D#8 0x31#8 0x32#8 0x33#8 0x34#8 0x35#8) s =
      .next { s with buf := ⟨0x02#8, 0x60#8, 0x3E#8, 0x7A#8, 0x63#8, 0x5B#8⟩ })

/-- spec/41_buffer_ops.md R95 (decision D19), `WR_BATT`, whole: the battery flag of position 0, 1, 2 is set exactly above 75, 50, 25,
for every percentage 0 to 255, and nothing else changes. -/
def Obligations.WrBattSetsTheBarsAboveTheThresholds : Prop :=
  (∀ w, opField w = 0x6#4 → decode w = .wrBatt (w.extractLsb' 0 8)) ∧
  (∀ (s : State) (p : Byte), ∃ b, exec (.wrBatt p) s = .next { s with buf := b } ∧
    ovl (b.get 0) = decide (75 < p.toNat) ∧ ovl (b.get 1) = decide (50 < p.toNat) ∧
    ovl (b.get 2) = decide (25 < p.toNat) ∧
    (∀ i : Fin 6, 3 ≤ i.val → ovl (b.get i) = ovl (s.buf.get i)) ∧
    (∀ i : Fin 6, glyph (b.get i) = glyph (s.buf.get i))) ∧
  (∀ s : State, s.buf = ⟨0x00#8, 0x00#8, 0x00#8, 0x00#8, 0x00#8, 0x00#8⟩ →
    exec (.wrBatt 60#8) s = .next { s with buf := ⟨0x00#8, 0x80#8, 0x80#8, 0x00#8, 0x00#8, 0x00#8⟩ })

/-- spec/41_buffer_ops.md R96 (decision D20), `WR_DP`, whole: the decimal-point flag at index `6 - pos` is set for `pos` in 1..3 and
every other one is clear, for every operand 0 to 255, and nothing else changes. -/
def Obligations.WrDpSetsTheFlagCountedFromTheRight : Prop :=
  (∀ w, opField w = 0x7#4 → decode w = .wrDp (w.extractLsb' 0 8)) ∧
  (∀ (s : State) (pos : Byte), ∃ b, exec (.wrDp pos) s = .next { s with buf := b } ∧
    (∀ i : Fin 6, 3 ≤ i.val →
      ovl (b.get i) = decide (1 ≤ pos.toNat ∧ pos.toNat ≤ 3 ∧ i.val = 6 - pos.toNat)) ∧
    (∀ i : Fin 6, i.val < 3 → ovl (b.get i) = ovl (s.buf.get i)) ∧
    (∀ i : Fin 6, glyph (b.get i) = glyph (s.buf.get i))) ∧
  (∀ s : State, s.buf = ⟨0x00#8, 0x00#8, 0x00#8, 0x7A#8, 0x60#8, 0x63#8⟩ →
    exec (.wrDp 2#8) s = .next { s with buf := ⟨0x00#8, 0x00#8, 0x00#8, 0x7A#8, 0xE0#8, 0x63#8⟩ })

/-- spec/41_buffer_ops.md R97 and spec/30_encoding.md R66 (decision D4): `NOP` and every reserved opcode are accepted and complete with
no change of state at all, no pin event, and `ready` still 1. -/
def Obligations.NopAndReservedOpcodesChangeNothing : Prop :=
  (∀ w, opField w = 0x0#4 → decode w = .nop) ∧
  (∀ s : State, exec .nop s = .next s) ∧
  (∀ (op : BitVec 4) (s : State), exec (.reservedAB op) s = .next s ∧ exec (.reservedCF op) s = .next s) ∧
  (∀ s : State, s.accepts = true →
    (opField s.portNow.cmdWord = 0x0#4 ∨ 0xA ≤ (opField s.portNow.cmdWord).toNat) →
    step s = .next s.nextPort ∧ s.nextPort.ready = true)

/-- spec/41_buffer_ops.md R98 (decision D14): an operation with an opcode below 8 that is accepted takes one cycle: one atomic change of
the buffer, no pin event, `tx_phase` still IDLE and `ready` 1 again; and without `ready` no operation changes the buffer. -/
def Obligations.BufferOperationsTakeOneCycleWithoutPinEvents : Prop :=
  (∀ s : State, s.accepts = true → (opField s.portNow.cmdWord).toNat < 8 →
    step s = .next { s.nextPort with buf := bufAfter s.cfg (decode s.portNow.cmdWord) s.buf } ∧
    ∀ t, step s = .next t → t.obs = s.obs ∧ t.pins = s.pins ∧ t.txPhase = .idle ∧ t.ready = true) ∧
  (∀ s : State, s.ready = false → s.portNow.rst = false → ∃ t, step s = .next t ∧ t.buf = s.buf)

/-! ### Laws of the buffer operations -/

/-- The access table of spec/10_state.md R23, which the spec derives from R90 to R97: no operation writes a buffer bit outside its
row, and the bits it writes depend on its operands and the parameters alone, never on the old buffer. -/
def Obligations.WritesStayInsideTheAccessTable : Prop :=
  ∀ i : Instr,
    (∀ s : State, ∃ t, exec i s = .next t ∧
      ∀ p, t.buf.get p &&& ~~~(writeMask i p) = s.buf.get p &&& ~~~(writeMask i p)) ∧
    (∀ s s' : State, s.cfg = s'.cfg → ∃ t t', exec i s = .next t ∧ exec i s' = .next t' ∧
      ∀ p, t.buf.get p &&& writeMask i p = t'.buf.get p &&& writeMask i p)

/-- spec/41_buffer_ops.md R99(a), derived there: the operations with an opcode below 8 are idempotent. -/
def Obligations.BufferOperationsAreIdempotent : Prop :=
  ∀ (i : Instr) (s : State), i.opcode.toNat < 8 → ∃ t, exec i s = .next t ∧ exec i t = .next t

/-- spec/41_buffer_ops.md R99(b) and (c), derived there: the three clears commute pairwise and make `CLR_ALL` in any order; `WR_BATT`
and `WR_DP` commute with each other and with `CLR_GLYPH`. -/
def Obligations.ClearsAndFlagWritesCommute : Prop :=
  ∀ (s : State) (p q : Byte),
    execSeq [.clrBatt, .clrDp] s = execSeq [.clrDp, .clrBatt] s ∧
    execSeq [.clrBatt, .clrGlyph] s = execSeq [.clrGlyph, .clrBatt] s ∧
    execSeq [.clrDp, .clrGlyph] s = execSeq [.clrGlyph, .clrDp] s ∧
    (∀ is ∈ [Instr.clrBatt, .clrDp, .clrGlyph].permutations, execSeq is s = exec .clrAll s) ∧
    execSeq [.wrBatt p, .wrDp q] s = execSeq [.wrDp q, .wrBatt p] s ∧
    execSeq [.wrBatt p, .clrGlyph] s = execSeq [.clrGlyph, .wrBatt p] s ∧
    execSeq [.wrDp q, .clrGlyph] s = execSeq [.clrGlyph, .wrDp q] s

/-- spec/41_buffer_ops.md R99(d), derived there: text then decimal point keeps the point; decimal point then text loses it; the glyphs
and the battery flags are the same. -/
def Obligations.TextClearsAnEarlierDecimalPoint : Prop :=
  ∀ (s : State) (len : BitVec 3) (c0 c1 c2 c3 c4 c5 q : Byte),
    ∃ t u, execSeq [.wrText len c0 c1 c2 c3 c4 c5, .wrDp q] s = .next t ∧
      execSeq [.wrDp q, .wrText len c0 c1 c2 c3 c4 c5] s = .next u ∧
      (∀ i : Fin 6, glyph (t.buf.get i) = glyph (u.buf.get i)) ∧
      (∀ i : Fin 6, i.val < 3 → ovl (t.buf.get i) = ovl (s.buf.get i) ∧ ovl (u.buf.get i) = ovl (s.buf.get i)) ∧
      (∀ i : Fin 6, 3 ≤ i.val →
        ovl (t.buf.get i) = decide (1 ≤ q.toNat ∧ q.toNat ≤ 3 ∧ i.val = 6 - q.toNat) ∧ ovl (u.buf.get i) = false)

/-- spec/30_encoding.md R63 (decision D5): `eff_len = min(len, 6)`; two texts of the same effective length whose characters agree below
it are the same operation, and the positions from it on get the blank glyph. -/
def Obligations.CharactersPastTheEffectiveLengthAreNotLookedUp : Prop :=
  ∀ (s : State) (len len' : BitVec 3) (c0 c1 c2 c3 c4 c5 d0 d1 d2 d3 d4 d5 : Byte),
    min len.toNat 6 = min len'.toNat 6 →
    (∀ i : Fin 6, i.val < min len.toNat 6 → charAt c0 c1 c2 c3 c4 c5 i = charAt d0 d1 d2 d3 d4 d5 i) →
    exec (.wrText len c0 c1 c2 c3 c4 c5) s = exec (.wrText len' d0 d1 d2 d3 d4 d5) s ∧
    ∃ t, exec (.wrText len c0 c1 c2 c3 c4 c5) s = .next t ∧
      ∀ i : Fin 6, min len.toNat 6 ≤ i.val → glyph (t.buf.get i) = 0b0000000#7

/-- spec/41_buffer_ops.md R99(g), derived there: `WR_DP 0` and `WR_DP p` for `p > 3` are `CLR_DP`. -/
def Obligations.UnsupportedDecimalPositionsOnlyClear : Prop :=
  ∀ (s : State) (p : Byte), p.toNat = 0 ∨ 3 < p.toNat → exec (.wrDp p) s = exec .clrDp s

/-- spec/41_buffer_ops.md R99(h), derived there: the number of bars by band, and that the bars are the rightmost ones. -/
def Obligations.BatteryShowsZeroToThreeRightmostBars : Prop :=
  ∀ (s : State) (p : Byte), ∃ t, exec (.wrBatt p) s = .next t ∧
    (([0, 1, 2] : List (Fin 6)).filter fun i => ovl (t.buf.get i)).length =
      (if p.toNat ≤ 25 then 0 else if p.toNat ≤ 50 then 1 else if p.toNat ≤ 75 then 2 else 3) ∧
    (ovl (t.buf.get 0) = true → ovl (t.buf.get 1) = true) ∧ (ovl (t.buf.get 1) = true → ovl (t.buf.get 2) = true)

/-! ### Packets -/

/-- spec/42_packet_ops.md R110 (decisions D10, D12): the fields of the command packet; it keeps every code apart. -/
def Obligations.CommandPacketHasTagCodeAndPadding : Prop :=
  ∀ (cfg : Config) (code : Byte),
    (pktCmd cfg code).extractLsb' 12 4 = cfg.cmdTag ∧ (pktCmd cfg code).extractLsb' 4 8 = code ∧
    (pktCmd cfg code).extractLsb' 0 4 = 0b0000#4 ∧
    ∀ code', pktCmd cfg code = pktCmd cfg code' → code = code'

/-- The data packet's fields and the place of every buffer bit, spec/42_packet_ops.md section 3 (R116(b), derived there from R113). That the
higher index is the high byte of a word is the spec's own reading D13, the padding its decision D12. -/
def Obligations.DataPacketHoldsEveryBufferBitOnce : Prop :=
  ∀ (cfg : Config) (b : SegBuf),
    (pktData cfg b).extractLsb' 61 3 = cfg.dataTag ∧ (pktData cfg b).extractLsb' 55 6 = 0b000000#6 ∧
    (pktData cfg b).extractLsb' 0 7 = 0b0000000#7 ∧
    (∀ (i : Fin 6) (k : Fin 8),
      (pktData cfg b).getLsbD (7 + 16 * (i.val / 2) + 8 * (i.val % 2) + k.val) = (b.get i).getLsbD k.val) ∧
    ∀ b', pktData cfg b = pktData cfg b' → b = b'

/-- The byte arrays of spec/42_packet_ops.md (R111, R114, derived there from spec/20_memory.md R42) for every tag and every buffer. -/
def Obligations.PacketByteArraysAreTheTables : Prop :=
  (∀ (cfg : Config) (code : Byte), cmdBytes cfg code =
    [cfg.cmdTag ++ code.extractLsb' 4 4, code.extractLsb' 0 4 ++ 0b0000#4]) ∧
  (∀ (cfg : Config) (b : SegBuf), dataBytes cfg b =
    [cfg.dataTag ++ startAddr.extractLsb' 1 5,
     startAddr.extractLsb' 0 1 ++ b.b5.extractLsb' 1 7,
     b.b5.extractLsb' 0 1 ++ b.b4.extractLsb' 1 7,
     b.b4.extractLsb' 0 1 ++ b.b3.extractLsb' 1 7,
     b.b3.extractLsb' 0 1 ++ b.b2.extractLsb' 1 7,
     b.b2.extractLsb' 0 1 ++ b.b1.extractLsb' 1 7,
     b.b1.extractLsb' 0 1 ++ b.b0.extractLsb' 1 7,
     b.b0.extractLsb' 0 1 ++ 0b0000000#7])

/-- spec/20_memory.md R42 for the wire: the bits a transaction puts on `DATA` are the packet's byte array, first byte first, each byte
from its bit 7 to its bit 0. -/
def Obligations.WireBitsAreTheByteArrayMsbFirst : Prop :=
  (∀ (cfg : Config) (code : Byte),
    dataLevels (transactionEvents (pktCmd cfg code)) = (cmdBytes cfg code).flatMap byteBits) ∧
  (∀ (cfg : Config) (b : SegBuf),
    dataLevels (transactionEvents (pktData cfg b)) = (dataBytes cfg b).flatMap byteBits)

/-- spec/20_memory.md R45, derived there from R41, R44 (the spec's own reading D13) and R113: after the three tag bits and six address
bits the buffer goes out rightmost position first, bit 7 of each byte first, and seven zero bits end it. -/
def Obligations.BufferGoesOutRightmostFirstOverlayFirst : Prop :=
  ∀ (cfg : Config) (b : SegBuf),
    dataLevels (transactionEvents (pktData cfg b)) =
      [cfg.dataTag.getLsbD 2, cfg.dataTag.getLsbD 1, cfg.dataTag.getLsbD 0] ++ List.replicate 6 false ++
        byteBits b.b5 ++ byteBits b.b4 ++ byteBits b.b3 ++ byteBits b.b2 ++ byteBits b.b1 ++ byteBits b.b0 ++
        List.replicate 7 false

/-! ### The send operations -/

/-- spec/42_packet_ops.md R112 (decisions D14, D18), `SEND_CMD`, whole: with a chip-select it completes by loading the command packet and
leaving IDLE, everything else unchanged; without one it does nothing; the example under the default tag (log 2). -/
def Obligations.SendCmdLoadsTheCommandPacket : Prop :=
  (∀ w, opField w = 0x8#4 → decode w = .sendCmd (w.extractLsb' 0 8)) ∧
  (∀ (s : State) (code : Byte), s.cfg.csPresent = true →
    exec (.sendCmd code) s =
      .next { s with shreg := pktCmd s.cfg code ++ 0#48, nbits := 16, bidx := 0, txPhase := .csLo }) ∧
  (∀ (s : State) (code : Byte), s.cfg.csPresent = false → exec (.sendCmd code) s = .next s) ∧
  (∀ s : State, s.cfg.csPresent = true → s.cfg.cmdTag = 0b1000#4 →
    exec (.sendCmd 0x06#8) s =
      .next { s with shreg := 0x8060000000000000#64, nbits := 16, bidx := 0, txPhase := .csLo })

/-- spec/42_packet_ops.md R115 (decisions D14, D18), `SEND_BUF`, whole: with a chip-select it completes by loading the data packet of the
buffer as it stands, everything else unchanged; without one it does nothing; the example under the default tag (log 2), and
the packet of an all-zero buffer. -/
def Obligations.SendBufLoadsASnapshotOfTheBuffer : Prop :=
  (∀ w, opField w = 0x9#4 → decode w = .sendBuf) ∧
  (∀ s : State, s.cfg.csPresent = true →
    exec .sendBuf s =
      .next { s with shreg := pktData s.cfg s.buf, nbits := 64, bidx := 0, txPhase := .csLo }) ∧
  (∀ s : State, s.cfg.csPresent = false → exec .sendBuf s = .next s) ∧
  (∀ s : State, s.cfg.csPresent = true → s.cfg.dataTag = 0b101#3 →
    s.buf = ⟨0x02#8, 0x60#8, 0x3E#8, 0x7A#8, 0x63#8, 0x5B#8⟩ →
    exec .sendBuf s =
      .next { s with shreg := 0xA02DB1BD1F300100#64, nbits := 64, bidx := 0, txPhase := .csLo }) ∧
  (∀ s : State, s.cfg.csPresent = true → s.buf = State.reset.buf →
    exec .sendBuf s =
      .next { s with shreg := s.cfg.dataTag ++ 0#61, nbits := 64, bidx := 0, txPhase := .csLo })

/-- spec/43_transmitter.md R139 (decision D18): without a chip-select an accepted send emits no event on any pin and leaves IDLE, and a run
of any length without a reset makes no pin event at all. -/
def Obligations.NoChipSelectMeansNoTransaction : Prop :=
  ∀ s : State, s.cfg.csPresent = false → s.txPhase = .idle →
    (∀ i : Instr, (i = .sendBuf ∨ ∃ code, i = .sendCmd code) → exec i s = .next s) ∧
    ∀ k, s.noReset k →
      ∃ t, run k s = .next t ∧ t.obs = s.obs ∧ t.pins = s.pins ∧ t.ready = true

/-! ### The transmitter -/

/-- spec/43_transmitter.md R132 to R136 (decision D14): one cycle in each phase, in full: its one event, the next phase, and nothing else
changed. In BIT_D the level is named for `bidx` in its range of spec/10_state.md R29, 0 to 63, and left open above it (log 10). The
last two clauses are R133's: the bit sent is wire bit `bidx` of the packet. -/
def Obligations.EachPhaseMakesItsOneEvent : Prop :=
  (∀ s : State, s.portNow.rst = false →
    (s.txPhase = .csLo → step s = .next { s.nextPort with
      pins := { s.pins with csN := false }, obs := s.obs ++ [.emit .csN false], txPhase := .bitD }) ∧
    (s.txPhase = .bitD → ∃ level, (s.bidx < 64 → level = s.shreg.getLsbD (63 - s.bidx)) ∧
      step s = .next { s.nextPort with
        pins := { s.pins with data := level }, obs := s.obs ++ [.emit .data level], txPhase := .bitCl }) ∧
    (s.txPhase = .bitCl → step s = .next { s.nextPort with
      pins := { s.pins with clk := false }, obs := s.obs ++ [.emit .clk false], txPhase := .bitCh }) ∧
    (s.txPhase = .bitCh → s.bidx + 1 < s.nbits → step s = .next { s.nextPort with
      pins := { s.pins with clk := true }, obs := s.obs ++ [.emit .clk true], bidx := s.bidx + 1,
      txPhase := .bitD }) ∧
    (s.txPhase = .bitCh → s.nbits ≤ s.bidx + 1 → step s = .next { s.nextPort with
      pins := { s.pins with clk := true }, obs := s.obs ++ [.emit .clk true], txPhase := .csHi }) ∧
    (s.txPhase = .csHi → step s = .next { s.nextPort with
      pins := { s.pins with csN := true }, obs := s.obs ++ [.emit .csN true], txPhase := .idle })) ∧
  (∀ (P : BitVec 16) (i : Nat), i < 16 → (P ++ 0#48 : BitVec 64).getLsbD (63 - i) = P.getLsbD (16 - 1 - i)) ∧
  (∀ (P : BitVec 64) (i : Nat), i < 64 → P.getLsbD (63 - i) = P.getLsbD (64 - 1 - i))

/-- spec/43_transmitter.md R130, the block's headline: from any state that accepts a send, with a chip-select and no reset on the way, the
events are exactly those of one transaction, one per cycle in their order, whatever the host presents meanwhile: 50 for a
command, 194 for a data packet. The buffer stands still, and the block is ready again exactly when the transaction is
complete. The cycle counts are R138, derived there from R130, R132 to R137 and the spec's decision D14. -/
def Obligations.AcceptedSendMakesExactlyOneTransaction : Prop :=
  (∀ (n : Nat) (P : BitVec n), (transactionEvents P).length = 2 + 3 * n) ∧
  (∀ (s : State) (code : Byte), s.accepts = true → s.cfg.csPresent = true → s.noReset 51 →
    decode s.portNow.cmdWord = .sendCmd code →
    ∀ k, 1 ≤ k → k ≤ 51 → ∃ t, run k s = .next t ∧
      t.obs = s.obs ++ (transactionEvents (pktCmd s.cfg code)).take (k - 1) ∧
      t.buf = s.buf ∧ t.ready = decide (k = 51)) ∧
  (∀ s : State, s.accepts = true → s.cfg.csPresent = true → s.noReset 195 →
    decode s.portNow.cmdWord = .sendBuf →
    ∀ k, 1 ≤ k → k ≤ 195 → ∃ t, run k s = .next t ∧
      t.obs = s.obs ++ (transactionEvents (pktData s.cfg s.buf)).take (k - 1) ∧
      t.buf = s.buf ∧ t.ready = decide (k = 195))

/-- spec/43_transmitter.md R142, derived there from R132 to R135: in a state of the invariant, `DATA` changes only in a BIT_D cycle, and
through the clock-low and clock-high cycles of a bit it holds that wire bit. -/
def Obligations.DataIsStableAroundTheClockEdges : Prop :=
  ∀ s : State, s.Inv → s.portNow.rst = false → ∃ t, step s = .next t ∧
    (t.pins.data ≠ s.pins.data → s.txPhase = .bitD) ∧
    (s.txPhase = .bitCl ∨ s.txPhase = .bitCh →
      s.pins.data = s.shreg.getLsbD (63 - s.bidx) ∧ t.pins.data = s.shreg.getLsbD (63 - s.bidx))

/-- spec/43_transmitter.md section 1 (R131) with spec/00_scope.md R15: a step adds to the observation one `RESET` marker, or exactly one
pin event of a busy transmitter, whose level the pin register then holds, or nothing; and in a state of the invariant an
event that no wire observer can see is an `emit(DATA, b)` with `DATA` already at `b`. -/
def Obligations.EachStepAddsAtMostOneEvent : Prop :=
  ∀ s : State, ∃ t, step s = .next t ∧
    (s.portNow.rst = true → t.obs = s.obs ++ [.reset] ∧ t.pins = Pins.idle) ∧
    (s.portNow.rst = false → s.ready = false → ∃ pin level,
      t.obs = s.obs ++ [.emit pin level] ∧ t.pins = s.pins.set pin level ∧
      (s.Inv → visible s.pins (.emit pin level) = false → pin = .data)) ∧
    (s.portNow.rst = false → s.ready = true → t.obs = s.obs ∧ t.pins = s.pins)

/-- spec/70_reset_and_hazards.md section 3 (R181), with one cycle for each event (decision D14): of a transaction of `n` wire bits `CS_N`
is low for `3n + 1` cycles and `CLK` for `n`, in wall-clock time so many periods `T_CYCLE` (log 14). -/
def Obligations.ChipSelectLowTimeIsThreePerBitPlusOne : Prop :=
  ∀ (cfg : Config) (n : Nat) (P : BitVec n),
    wallTime cfg ((waveform Pins.idle (transactionEvents P)).filter fun p => !p.csN).length =
      (3 * n + 1) * cfg.tCycle ∧
    ((waveform Pins.idle (transactionEvents P)).filter fun p => !p.clk).length = n

/-! ### The invariant and the liveness of the block -/

/-- The reset state meets the invariant. -/
def Obligations.ResetMeetsTheInvariant : Prop := State.reset.Inv

/-- Every step keeps the invariant: the pins hold the levels of the last events (spec/00_scope.md R11), the idle block has the levels of
spec/10_state.md R34, each phase has its pin levels, and a transaction sends a well-formed packet, the buffer's own for a
data packet (spec/20_memory.md R51). -/
def Obligations.EveryStepKeepsTheInvariant : Prop :=
  ∀ s : State, s.Inv → ∀ t, step s = .next t → t.Inv

/-- spec/60_exceptions.md R152, derived there: from every state of the invariant the block is ready within 194 cycles by its own steps,
whatever the host presents, if no reset comes. -/
def Obligations.BusyIsLiftedWithin194Cycles : Prop :=
  ∀ s : State, s.Inv → s.noReset 194 → ∃ k, k ≤ 194 ∧ ∃ t, run k s = .next t ∧ t.ready = true

/-- spec/70_reset_and_hazards.md R178 (decision D32): a host that presents an operation and keeps `cmd_valid` at 1 while it is held has the
word of the first ready cycle accepted, and nothing was accepted before; that this cycle comes, within 194, is
spec/60_exceptions.md R152, derived there; a word that the host changes or drops while the block is busy has sent nothing. -/
def Obligations.HeldOperationIsAcceptedAtTheFirstReadyCycle : Prop :=
  (∀ s : State, s.Inv → s.noReset 195 → hostKeepsDuty 195 s = true → s.portNow.cmdValid = true →
    ∃ k, k ≤ 194 ∧ ∃ t, run k s = .next t ∧ t.accepts = true ∧ t.buf = s.buf ∧
      (∀ j, j < k → ∃ u, run j s = .next u ∧ u.ready = false) ∧
      run (k + 1) s = exec (decode t.portNow.cmdWord) t.nextPort) ∧
  (∀ (s : State) (v w : CmdWord), s.ready = false →
    step (s.withPort ⟨false, true, v⟩) = step (s.withPort ⟨false, true, w⟩) ∧
    step (s.withPort ⟨false, true, v⟩) = step (s.withPort PortIn.quiet))

/-- The cycle machine refines the run-to-completion reading of spec/20_memory.md R50 (decision D27), with the cycle counts of
spec/70_reset_and_hazards.md R180 (derived there from decision D14): driven by a host that keeps its duty (log 16), any list of command
words is accepted in order, none lost, and leaves the buffer and the events of the same words run to completion one after
the other. -/
def Obligations.HostRunRefinesRunToCompletion : Prop :=
  ∀ (ws : List CmdWord) (s : State), s.ready = true →
    ∃ t, hostRun (wordsCycles s.cfg ws) ws s = .next ([], t) ∧ t.ready = true ∧ t.cfg = s.cfg ∧
      t.buf = wordsBuf s.cfg ws s.buf ∧ t.obs = s.obs ++ wordsEvents s.cfg ws s.buf

/-! ### Notation -/

/-- The assembler notation and pseudo-operations, spec/30_encoding.md R67, R68 (decision D25): every mnemonic without an operand; every
text of a number up to 255, decimal or hexadecimal, of `WR_BATT`, `WR_DP`, `SEND_CMD` and `SHOW_FIXED`; every text of at most six
characters in 0x20..0x7E of `WR_TEXT`, `SHOW_TEXT` and `SHOW_FIXED`, a text that holds a quote among them. What R67 leaves open, the
model's choice in log 15: the white space, that the last quote of the line closes a text, leading zeros and the case of
hexadecimal digits. -/
def Obligations.AssemblerLinesStandForTheirOperations : Prop :=
  (assembleLine ['N', 'O', 'P'] = some [encode .nop] ∧
    assembleLine ['C', 'L', 'R', '_', 'B', 'A', 'T', 'T'] = some [encode .clrBatt] ∧
    assembleLine ['C', 'L', 'R', '_', 'D', 'P'] = some [encode .clrDp] ∧
    assembleLine ['C', 'L', 'R', '_', 'G', 'L', 'Y', 'P', 'H'] = some [encode .clrGlyph] ∧
    assembleLine ['C', 'L', 'R', '_', 'A', 'L', 'L'] = some [encode .clrAll] ∧
    assembleLine ['S', 'E', 'N', 'D', '_', 'B', 'U', 'F'] = some [encode .sendBuf] ∧
    assembleLine ['D', 'I', 'S', 'P', 'L', 'A', 'Y', '_', 'O', 'N'] = some [encode (.sendCmd 0x06#8)] ∧
    assembleLine ['C', 'L', 'E', 'A', 'R'] = some [encode .clrAll, encode .sendBuf]) ∧
  (∀ (num : List Char) (n : Nat), NumberText num n → n ≤ 255 →
    assembleLine (['W', 'R', '_', 'B', 'A', 'T', 'T', ' '] ++ num) = some [encode (.wrBatt (BitVec.ofNat 8 n))] ∧
    assembleLine (['W', 'R', '_', 'D', 'P', ' '] ++ num) = some [encode (.wrDp (BitVec.ofNat 8 n))] ∧
    assembleLine (['S', 'E', 'N', 'D', '_', 'C', 'M', 'D', ' '] ++ num) = some [encode (.sendCmd (BitVec.ofNat 8 n))]) ∧
  (∀ text : List Char, text.length ≤ 6 → (∀ c ∈ text, 0x20 ≤ c.toNat ∧ c.toNat ≤ 0x7E) →
    ∃ i, i = Instr.wrText (BitVec.ofNat 3 text.length)
        (BitVec.ofNat 8 ((text[0]?.map Char.toNat).getD 0)) (BitVec.ofNat 8 ((text[1]?.map Char.toNat).getD 0))
        (BitVec.ofNat 8 ((text[2]?.map Char.toNat).getD 0)) (BitVec.ofNat 8 ((text[3]?.map Char.toNat).getD 0))
        (BitVec.ofNat 8 ((text[4]?.map Char.toNat).getD 0)) (BitVec.ofNat 8 ((text[5]?.map Char.toNat).getD 0)) ∧
      assembleLine (['W', 'R', '_', 'T', 'E', 'X', 'T', ' ', '"'] ++ text ++ ['"']) = some [encode i] ∧
      assembleLine (['S', 'H', 'O', 'W', '_', 'T', 'E', 'X', 'T', ' ', '"'] ++ text ++ ['"']) =
        some [encode i, encode .sendBuf] ∧
      ∀ (num : List Char) (n : Nat), NumberText num n → n ≤ 255 →
        assembleLine (['S', 'H', 'O', 'W', '_', 'F', 'I', 'X', 'E', 'D', ' ', '"'] ++ text ++ ['"', ',', ' '] ++ num) =
          some [encode i, encode (.wrDp (BitVec.ofNat 8 n)), encode .sendBuf])
end

