-- ==== Sys2Proof/Laws/Asm.lean ====
section
/-!
SUPPORT. What the operand readers of the assembler notation answer (spec/30_encoding.md R67; log 15): one lemma each.
-/

namespace Sys2Proof.Machine

theorem decDigit_digitChar : ∀ d : Fin 10, decDigit (Nat.digitChar d.val) = some d.val := by decide

theorem hexDigit_hexChar : ∀ d : Fin 16 × Bool, hexDigit (hexChar d) = some d.1.val := by decide

/-- Reading digits is folding their values, when each character is the digit it stands for. -/
theorem digitsValue_map {α : Type} (base : Nat) (digit : Char → Option Nat) (char : α → Char) (val : α → Nat)
    (h : ∀ d, digit (char d) = some (val d)) (ds : List α) (acc : Nat) :
    digitsValue base digit (ds.map char) acc = some ((ds.map val).foldl (fun a d => base * a + d) acc) := by
  induction ds generalizing acc with
  | nil => rfl
  | cons d ds ih => simp only [List.map_cons, digitsValue, h, ih, List.foldl_cons]

/-- A line that does not start with `0x` is read as decimal. -/
theorem parseNumber_decimal (c : Char) (cs : List Char) (h : ∀ d ds, cs = d :: ds → d ≠ 'x') :
    parseNumber (c :: cs) = digitsValue 10 decDigit (c :: cs) 0 := by
  unfold parseNumber
  split
  · contradiction
  · next e => cases e; exact absurd rfl (h _ _ rfl)
  · next e => cases e; exact absurd rfl (h _ _ rfl)
  · rfl

/-- Every text of a number is read as that number. -/
theorem parseNumber_numberText {text : List Char} {n : Nat} (h : NumberText text n) : parseNumber text = some n := by
  rcases h with ⟨ds, hne, rfl, rfl⟩ | ⟨ds, hne, rfl, rfl⟩
  · obtain ⟨d, ds, rfl⟩ := List.exists_cons_of_ne_nil hne
    have noX : ∀ d : Fin 10, Nat.digitChar d.val ≠ 'x' := by decide
    rw [List.map_cons, parseNumber_decimal]
    · exact digitsValue_map 10 decDigit _ _ decDigit_digitChar (d :: ds) 0
    · intro e es h
      cases ds with
      | nil => cases h
      | cons d' ds => cases h; exact noX d'
  · obtain ⟨d, ds, rfl⟩ := List.exists_cons_of_ne_nil hne
    exact digitsValue_map 16 hexDigit hexChar _ hexDigit_hexChar (d :: ds) 0

/-- Every text of a number up to 255 is read as that byte. -/
theorem parseByte_numberText {text : List Char} {n : Nat} (h : NumberText text n) (hn : n ≤ 255) :
    parseByte text = some (BitVec.ofNat 8 n) := by
  simp [parseByte, parseNumber_numberText h, hn]

/-- A text of a number holds no quote. -/
theorem numberText_ne_quote {text : List Char} {n : Nat} (h : NumberText text n) : ∀ c ∈ text, c ≠ '"' := by
  have dec : ∀ d : Fin 10, Nat.digitChar d.val ≠ '"' := by decide
  have hex : ∀ d : Fin 16 × Bool, hexChar d ≠ '"' := by decide
  rcases h with ⟨ds, -, rfl, -⟩ | ⟨ds, -, rfl, -⟩
  · intro c hc
    obtain ⟨d, -, rfl⟩ := List.mem_map.1 hc
    exact dec d
  · intro c hc
    rcases List.mem_cons.1 hc with rfl | hc
    · decide
    · rcases List.mem_cons.1 hc with rfl | hc
      · decide
      · obtain ⟨d, -, rfl⟩ := List.mem_map.1 hc
        exact hex d

/-- A text operand ends at the last quote of the line. -/
theorem splitQuoted_append (text after : List Char) (h : ∀ c ∈ after, c ≠ '"') :
    splitQuoted ('"' :: (text ++ '"' :: after)) = some (text, after) := by
  have hr : ∀ c ∈ after.reverse, decide (c ≠ '"') = true := fun c hc => by simpa using h c (by simpa using hc)
  have rev : (text ++ '"' :: after).reverse = after.reverse ++ '"' :: text.reverse := by simp
  unfold splitQuoted
  simp only [rev, List.takeWhile_append_of_pos hr, List.dropWhile_append_of_pos hr]
  simp

/-- The codes of a text of supported characters. -/
theorem textCodes_of_range (text : List Char) (h : ∀ c ∈ text, 0x20 ≤ c.toNat ∧ c.toNat ≤ 0x7E) :
    textCodes text = some (text.map fun c => BitVec.ofNat 8 c.toNat) := by
  induction text with
  | nil => rfl
  | cons c cs ih =>
    rw [textCodes, ih fun d hd => h d (List.mem_cons_of_mem c hd), textCode, if_pos (h c List.mem_cons_self)]
    rfl

end Sys2Proof.Machine
end

