-- ==== Sys2Proof/Laws/State.lean ====
section
/-!
SUPPORT. One lemma for each field of `State` and each operation that updates it, true by `rfl`, so that no later proof unfolds a
record update.
-/

namespace Sys2Proof.Machine

variable (s : State) (b : SegBuf) (p : PortIn) (pin : Pin) (l : Bool)

/-! ### `withBuf` -/
@[simp] theorem withBuf_cfg : (s.withBuf b).cfg = s.cfg := rfl
@[simp] theorem withBuf_buf : (s.withBuf b).buf = b := rfl
@[simp] theorem withBuf_txPhase : (s.withBuf b).txPhase = s.txPhase := rfl
@[simp] theorem withBuf_shreg : (s.withBuf b).shreg = s.shreg := rfl
@[simp] theorem withBuf_nbits : (s.withBuf b).nbits = s.nbits := rfl
@[simp] theorem withBuf_bidx : (s.withBuf b).bidx = s.bidx := rfl
@[simp] theorem withBuf_pins : (s.withBuf b).pins = s.pins := rfl
@[simp] theorem withBuf_obs : (s.withBuf b).obs = s.obs := rfl
@[simp] theorem withBuf_inputs : (s.withBuf b).inputs = s.inputs := rfl
@[simp] theorem withBuf_self : s.withBuf s.buf = s := rfl
@[simp] theorem withBuf_withBuf (b' : SegBuf) : (s.withBuf b).withBuf b' = s.withBuf b' := rfl
@[simp] theorem withBuf_ready : (s.withBuf b).ready = s.ready := rfl

/-! ### `nextPort` -/
@[simp] theorem nextPort_cfg : s.nextPort.cfg = s.cfg := rfl
@[simp] theorem nextPort_buf : s.nextPort.buf = s.buf := rfl
@[simp] theorem nextPort_txPhase : s.nextPort.txPhase = s.txPhase := rfl
@[simp] theorem nextPort_shreg : s.nextPort.shreg = s.shreg := rfl
@[simp] theorem nextPort_nbits : s.nextPort.nbits = s.nbits := rfl
@[simp] theorem nextPort_bidx : s.nextPort.bidx = s.bidx := rfl
@[simp] theorem nextPort_pins : s.nextPort.pins = s.pins := rfl
@[simp] theorem nextPort_obs : s.nextPort.obs = s.obs := rfl
@[simp] theorem nextPort_inputs : s.nextPort.inputs = s.inputs.tail := rfl
@[simp] theorem nextPort_ready : s.nextPort.ready = s.ready := rfl
@[simp] theorem nextPort_wireBit : wireBit s.nextPort = wireBit s := rfl

/-! ### `withPort` -/
@[simp] theorem withPort_cfg : (s.withPort p).cfg = s.cfg := rfl
@[simp] theorem withPort_buf : (s.withPort p).buf = s.buf := rfl
@[simp] theorem withPort_txPhase : (s.withPort p).txPhase = s.txPhase := rfl
@[simp] theorem withPort_shreg : (s.withPort p).shreg = s.shreg := rfl
@[simp] theorem withPort_nbits : (s.withPort p).nbits = s.nbits := rfl
@[simp] theorem withPort_bidx : (s.withPort p).bidx = s.bidx := rfl
@[simp] theorem withPort_pins : (s.withPort p).pins = s.pins := rfl
@[simp] theorem withPort_obs : (s.withPort p).obs = s.obs := rfl
@[simp] theorem withPort_inputs : (s.withPort p).inputs = p :: s.inputs.tail := rfl
@[simp] theorem withPort_portNow : (s.withPort p).portNow = p := rfl
@[simp] theorem withPort_ready : (s.withPort p).ready = s.ready := rfl
@[simp] theorem withPort_nextPort : (s.withPort p).nextPort = s.nextPort := rfl

/-! ### `emit` -/
@[simp] theorem emit_cfg : (emit pin l s).cfg = s.cfg := rfl
@[simp] theorem emit_buf : (emit pin l s).buf = s.buf := rfl
@[simp] theorem emit_txPhase : (emit pin l s).txPhase = s.txPhase := rfl
@[simp] theorem emit_shreg : (emit pin l s).shreg = s.shreg := rfl
@[simp] theorem emit_nbits : (emit pin l s).nbits = s.nbits := rfl
@[simp] theorem emit_bidx : (emit pin l s).bidx = s.bidx := rfl
@[simp] theorem emit_pins : (emit pin l s).pins = s.pins.set pin l := rfl
@[simp] theorem emit_obs : (emit pin l s).obs = s.obs ++ [.emit pin l] := rfl
@[simp] theorem emit_inputs : (emit pin l s).inputs = s.inputs := rfl

/-! ### `resetBlock` -/
@[simp] theorem resetBlock_cfg : (resetBlock s).cfg = s.cfg := rfl
@[simp] theorem resetBlock_buf : (resetBlock s).buf = State.reset.buf := rfl
@[simp] theorem resetBlock_txPhase : (resetBlock s).txPhase = .idle := rfl
@[simp] theorem resetBlock_shreg : (resetBlock s).shreg = 0#64 := rfl
@[simp] theorem resetBlock_nbits : (resetBlock s).nbits = 0 := rfl
@[simp] theorem resetBlock_bidx : (resetBlock s).bidx = 0 := rfl
@[simp] theorem resetBlock_pins : (resetBlock s).pins = Pins.idle := rfl
@[simp] theorem resetBlock_obs : (resetBlock s).obs = s.obs ++ [.reset] := rfl
@[simp] theorem resetBlock_inputs : (resetBlock s).inputs = s.inputs := rfl
@[simp] theorem resetBlock_ready : (resetBlock s).ready = true := rfl

/-! ### `Pins.set` -/
@[simp] theorem set_csN (q : Pins) : q.set .csN l = ⟨l, q.clk, q.data⟩ := rfl
@[simp] theorem set_clk (q : Pins) : q.set .clk l = ⟨q.csN, l, q.data⟩ := rfl
@[simp] theorem set_data (q : Pins) : q.set .data l = ⟨q.csN, q.clk, l⟩ := rfl

end Sys2Proof.Machine
end

