-- ==== Sys2Proof/Laws/Buffer.lean ====
section
/-!
SUPPORT. The laws of SegmentBytes and of the segment buffer: reading after writing, and what each buffer operation does to every
glyph and every overlay bit.
-/

namespace Sys2Proof.Machine

/-! ### SegmentBytes -/

/-- The bits of `{OVL, GLYPH}`. -/
theorem getLsbD_segByte (o : Bool) (g : Glyph) (k : Nat) :
    (segByte o g).getLsbD k = if k < 7 then g.getLsbD k else (BitVec.ofBool o).getLsbD (k - 7) := by
  rw [segByte, BitVec.getLsbD_append]

@[simp] theorem ovl_segByte (o : Bool) (g : Glyph) : ovl (segByte o g) = o := by
  rw [ovl, getLsbD_segByte]
  cases o <;> rfl

@[simp] theorem glyph_segByte (o : Bool) (g : Glyph) : glyph (segByte o g) = g := by
  apply BitVec.eq_of_getLsbD_eq
  intro k hk
  rw [glyph, BitVec.getLsbD_extractLsb', Nat.zero_add, getLsbD_segByte]
  simp [hk]

@[simp] theorem segByte_ovl_glyph (v : Byte) : segByte (ovl v) (glyph v) = v := by
  apply BitVec.eq_of_getLsbD_eq
  intro k hk
  rw [getLsbD_segByte]
  by_cases h : k < 7
  · rw [if_pos h, glyph, BitVec.getLsbD_extractLsb', Nat.zero_add]
    simp [h]
  · obtain rfl : k = 7 := by omega
    rw [if_neg h]
    simp [ovl]

@[simp] theorem ovl_withOvl (v : Byte) (o : Bool) : ovl (withOvl v o) = o := by simp [withOvl]
@[simp] theorem glyph_withOvl (v : Byte) (o : Bool) : glyph (withOvl v o) = glyph v := by simp [withOvl]
@[simp] theorem ovl_withGlyph (v : Byte) (g : Glyph) : ovl (withGlyph v g) = ovl v := by simp [withGlyph]
@[simp] theorem glyph_withGlyph (v : Byte) (g : Glyph) : glyph (withGlyph v g) = g := by simp [withGlyph]

/-- A SegmentByte is its overlay bit and its glyph. -/
theorem byte_ext {v w : Byte} (ho : ovl v = ovl w) (hg : glyph v = glyph w) : v = w := by
  rw [← segByte_ovl_glyph v, ← segByte_ovl_glyph w, ho, hg]

/-! ### The buffer -/

@[simp] theorem get_ofFn (f : Fin 6 → Byte) (i : Fin 6) : (SegBuf.ofFn f).get i = f i := by
  match i with
  | 0 => rfl
  | 1 => rfl
  | 2 => rfl
  | 3 => rfl
  | 4 => rfl
  | 5 => rfl

/-- A buffer is its six entries. -/
theorem segBuf_ext {b c : SegBuf} (h : ∀ i, b.get i = c.get i) : b = c := by
  cases b; cases c
  simp only [SegBuf.mk.injEq]
  exact ⟨h 0, h 1, h 2, h 3, h 4, h 5⟩

/-- A buffer is its six overlay bits and its six glyphs. -/
theorem segBuf_ext_fields {b c : SegBuf} (ho : ∀ i, ovl (b.get i) = ovl (c.get i))
    (hg : ∀ i, glyph (b.get i) = glyph (c.get i)) : b = c :=
  segBuf_ext fun i => byte_ext (ho i) (hg i)

@[simp] theorem ovl_setOvls (P v : Fin 6 → Bool) (b : SegBuf) (i : Fin 6) :
    ovl ((b.setOvls P v).get i) = if P i then v i else ovl (b.get i) := by
  unfold SegBuf.setOvls
  cases h : P i <;> simp [h]

@[simp] theorem glyph_setOvls (P v : Fin 6 → Bool) (b : SegBuf) (i : Fin 6) :
    glyph ((b.setOvls P v).get i) = glyph (b.get i) := by
  unfold SegBuf.setOvls
  cases h : P i <;> simp [h]

@[simp] theorem ovl_setGlyphs (g : Fin 6 → Glyph) (b : SegBuf) (i : Fin 6) :
    ovl ((b.setGlyphs g).get i) = ovl (b.get i) := by simp [SegBuf.setGlyphs]

@[simp] theorem glyph_setGlyphs (g : Fin 6 → Glyph) (b : SegBuf) (i : Fin 6) :
    glyph ((b.setGlyphs g).get i) = g i := by simp [SegBuf.setGlyphs]

/-! ### The clears and the flag operations -/

@[simp] theorem ovl_clearBatt (b : SegBuf) (i : Fin 6) :
    ovl (b.clearBatt.get i) = (!isBattPos i && ovl (b.get i)) := by
  unfold SegBuf.clearBatt
  cases h : isBattPos i <;> simp [h]

@[simp] theorem glyph_clearBatt (b : SegBuf) (i : Fin 6) : glyph (b.clearBatt.get i) = glyph (b.get i) := by
  simp [SegBuf.clearBatt]

@[simp] theorem ovl_clearDp (b : SegBuf) (i : Fin 6) :
    ovl (b.clearDp.get i) = (!isDpPos i && ovl (b.get i)) := by
  unfold SegBuf.clearDp
  cases h : isDpPos i <;> simp [h]

@[simp] theorem glyph_clearDp (b : SegBuf) (i : Fin 6) : glyph (b.clearDp.get i) = glyph (b.get i) := by
  simp [SegBuf.clearDp]

@[simp] theorem ovl_clearGlyphs (b : SegBuf) (i : Fin 6) : ovl (b.clearGlyphs.get i) = ovl (b.get i) := by
  simp [SegBuf.clearGlyphs]

@[simp] theorem glyph_clearGlyphs (b : SegBuf) (i : Fin 6) : glyph (b.clearGlyphs.get i) = blankGlyph := by
  simp [SegBuf.clearGlyphs]

@[simp] theorem ovl_raiseOvls (P : Fin 6 → Bool) (b : SegBuf) (i : Fin 6) :
    ovl ((b.raiseOvls P).get i) = (P i || ovl (b.get i)) := by
  unfold SegBuf.raiseOvls
  cases h : P i <;> simp [h]

@[simp] theorem glyph_raiseOvls (P : Fin 6 → Bool) (b : SegBuf) (i : Fin 6) :
    glyph ((b.raiseOvls P).get i) = glyph (b.get i) := by simp [SegBuf.raiseOvls]

/-- What `WR_TEXT` leaves in the overlay bits: the battery flags kept, the decimal-point flags clear. -/
@[simp] theorem ovl_textBuf (cfg : Config) (len : BitVec 3) (chars : Fin 6 → Byte) (b : SegBuf) (i : Fin 6) :
    ovl ((textBuf cfg len chars b).get i) = (!isDpPos i && ovl (b.get i)) := by simp [textBuf]

/-- What `WR_TEXT` leaves in the glyphs: since they are cleared first, the or leaves exactly the new glyph. -/
@[simp] theorem glyph_textBuf (cfg : Config) (len : BitVec 3) (chars : Fin 6 → Byte) (b : SegBuf) (i : Fin 6) :
    glyph ((textBuf cfg len chars b).get i) = textGlyph cfg len chars i := by simp [textBuf, blankGlyph]

@[simp] theorem ovl_battBuf (p : Byte) (b : SegBuf) (i : Fin 6) :
    ovl ((battBuf p b).get i) = (battFlag p i || (!isBattPos i && ovl (b.get i))) := by simp [battBuf]

@[simp] theorem glyph_battBuf (p : Byte) (b : SegBuf) (i : Fin 6) :
    glyph ((battBuf p b).get i) = glyph (b.get i) := by simp [battBuf]

@[simp] theorem ovl_dpBuf (pos : Byte) (b : SegBuf) (i : Fin 6) :
    ovl ((dpBuf pos b).get i) = (dpFlag pos i || (!isDpPos i && ovl (b.get i))) := by simp [dpBuf]

@[simp] theorem glyph_dpBuf (pos : Byte) (b : SegBuf) (i : Fin 6) :
    glyph ((dpBuf pos b).get i) = glyph (b.get i) := by simp [dpBuf]

/-! ### The flag computations -/

theorem battFlag_zero (p : Byte) : battFlag p 0 = decide (75 < p.toNat) := rfl
theorem battFlag_one (p : Byte) : battFlag p 1 = decide (50 < p.toNat) := rfl
theorem battFlag_two (p : Byte) : battFlag p 2 = decide (25 < p.toNat) := rfl
theorem dpFlag_eq (pos : Byte) (i : Fin 6) :
    dpFlag pos i = decide (1 ≤ pos.toNat ∧ pos.toNat ≤ 3 ∧ i.val = 6 - pos.toNat) := rfl

/-- A battery flag is set at a battery position only. -/
theorem battFlag_isBattPos {p : Byte} {i : Fin 6} (h : battFlag p i = true) : isBattPos i = true := by
  match i with
  | 0 => rfl
  | 1 => rfl
  | 2 => rfl
  | 3 => simp [battFlag] at h
  | 4 => simp [battFlag] at h
  | 5 => simp [battFlag] at h

/-- A decimal-point flag is set at a decimal-point position only. -/
theorem dpFlag_isDpPos {pos : Byte} {i : Fin 6} (h : dpFlag pos i = true) : isDpPos i = true := by
  simp only [dpFlag, decide_eq_true_eq] at h
  simp only [isDpPos, decide_eq_true_eq]
  omega

/-- Every position is a battery position or a decimal-point position. -/
theorem position_cases (i : Fin 6) :
    (i.val < 3 ∧ isBattPos i = true ∧ isDpPos i = false) ∨ (3 ≤ i.val ∧ isBattPos i = false ∧ isDpPos i = true) := by
  revert i
  decide

theorem battFlag_of_dp (p : Byte) {i : Fin 6} (h : isBattPos i = false) : battFlag p i = false := by
  cases hb : battFlag p i
  · rfl
  · rw [battFlag_isBattPos hb] at h
    cases h

theorem dpFlag_of_batt (pos : Byte) {i : Fin 6} (h : isDpPos i = false) : dpFlag pos i = false := by
  cases hd : dpFlag pos i
  · rfl
  · rw [dpFlag_isDpPos hd] at h
    cases h

/-- The battery positions and the decimal-point positions are the two halves of the buffer (spec/10_state.md R22). -/
theorem isDpPos_eq_not (i : Fin 6) : isDpPos i = !isBattPos i := by
  revert i
  decide

end Sys2Proof.Machine
end

