-- ==== Sys2Proof/Laws/Decode.lean ====
section
/-!
SUPPORT. The bits of an encoded word, its fields, and what the decoder answers for each value of the opcode field.
-/

namespace Sys2Proof

/-! ### The bits of the three formats -/

theorem getLsbD_formNone (op : BitVec 4) (k : Nat) :
    (formNone op).getLsbD k = if k < 60 then false else op.getLsbD (k - 60) := by
  rw [formNone, BitVec.getLsbD_append]
  simp

theorem getLsbD_formByte (op : BitVec 4) (a : Byte) (k : Nat) :
    (formByte op a).getLsbD k =
      if k < 8 then a.getLsbD k else if k < 60 then false else op.getLsbD (k - 60) := by
  rw [formByte, BitVec.getLsbD_append, BitVec.getLsbD_append, Nat.sub_sub]
  have : (k - 8 < 52) = (k < 60) ∨ k < 8 := by
    by_cases h : k < 8
    · exact .inr h
    · exact .inl (by simp only [eq_iff_iff]; omega)
  rcases this with h | h <;> simp [h]

theorem getLsbD_formText (op : BitVec 4) (len : BitVec 3) (c0 c1 c2 c3 c4 c5 : Byte) (k : Nat) :
    (formText op len c0 c1 c2 c3 c4 c5).getLsbD k =
      if k < 8 then c0.getLsbD k else if k < 16 then c1.getLsbD (k - 8) else if k < 24 then c2.getLsbD (k - 16)
      else if k < 32 then c3.getLsbD (k - 24) else if k < 40 then c4.getLsbD (k - 32)
      else if k < 48 then c5.getLsbD (k - 40) else if k < 56 then false
      else if k < 59 then len.getLsbD (k - 56) else if k < 60 then false else op.getLsbD (k - 60) := by
  unfold formText
  repeat rw [BitVec.getLsbD_append]
  simp only [Nat.sub_sub, Nat.reduceAdd, BitVec.getLsbD_zero]
  repeat refine ite_congr (propext (by omega)) (fun _ => rfl) fun _ => ?_
  rfl

/-! ### The fields of the three formats -/

@[simp] theorem opField_formNone (op : BitVec 4) : opField (formNone op) = op := by
  apply BitVec.eq_of_getLsbD_eq
  intro k hk
  rw [opField, BitVec.getLsbD_extractLsb', getLsbD_formNone]
  simp [hk]

@[simp] theorem opField_formByte (op : BitVec 4) (a : Byte) : opField (formByte op a) = op := by
  apply BitVec.eq_of_getLsbD_eq
  intro k hk
  rw [opField, BitVec.getLsbD_extractLsb', getLsbD_formByte]
  have : ¬ 60 + k < 8 := by omega
  simp [hk, this]

@[simp] theorem charField_formByte (op : BitVec 4) (a : Byte) : charField (formByte op a) 0 = a := by
  apply BitVec.eq_of_getLsbD_eq
  intro k hk
  rw [charField, BitVec.getLsbD_extractLsb', getLsbD_formByte]
  simp [hk]

@[simp] theorem opField_formText (op : BitVec 4) (len : BitVec 3) (c0 c1 c2 c3 c4 c5 : Byte) :
    opField (formText op len c0 c1 c2 c3 c4 c5) = op := by
  apply BitVec.eq_of_getLsbD_eq
  intro k hk
  rw [opField, BitVec.getLsbD_extractLsb', getLsbD_formText]
  repeat rw [if_neg (by omega)]
  simp [hk]

@[simp] theorem lenField_formText (op : BitVec 4) (len : BitVec 3) (c0 c1 c2 c3 c4 c5 : Byte) :
    lenField (formText op len c0 c1 c2 c3 c4 c5) = len := by
  apply BitVec.eq_of_getLsbD_eq
  intro k hk
  rw [lenField, BitVec.getLsbD_extractLsb', getLsbD_formText]
  repeat rw [if_neg (by omega)]
  rw [if_pos (by omega)]
  simp [hk]

/-- Character code `i` of a text word is its `i`-th character operand. -/
theorem charField_formText (op : BitVec 4) (len : BitVec 3) (c0 c1 c2 c3 c4 c5 : Byte) :
    charField (formText op len c0 c1 c2 c3 c4 c5) 0 = c0 ∧ charField (formText op len c0 c1 c2 c3 c4 c5) 1 = c1 ∧
    charField (formText op len c0 c1 c2 c3 c4 c5) 2 = c2 ∧ charField (formText op len c0 c1 c2 c3 c4 c5) 3 = c3 ∧
    charField (formText op len c0 c1 c2 c3 c4 c5) 4 = c4 ∧ charField (formText op len c0 c1 c2 c3 c4 c5) 5 = c5 := by
  refine ⟨?_, ?_, ?_, ?_, ?_, ?_⟩ <;>
    · apply BitVec.eq_of_getLsbD_eq
      intro k hk
      rw [charField, BitVec.getLsbD_extractLsb', getLsbD_formText]
      repeat rw [if_neg (by omega)]
      rw [if_pos (by omega)]
      simp [hk]

/-! ### The decoder by opcode (R61) -/

/-- The sixteen opcodes by table row. -/
theorem opField_cases (w : CmdWord) :
    opField w = 0x0#4 ∨ opField w = 0x1#4 ∨ opField w = 0x2#4 ∨ opField w = 0x3#4 ∨ opField w = 0x4#4 ∨
    opField w = 0x5#4 ∨ opField w = 0x6#4 ∨ opField w = 0x7#4 ∨ opField w = 0x8#4 ∨ opField w = 0x9#4 ∨
    (opField w = 0xA#4 ∨ opField w = 0xB#4) ∨ 0xC ≤ (opField w).toNat := by
  generalize opField w = v
  revert v
  decide

section
variable {w : CmdWord}

theorem decode_nop (h : opField w = 0x0#4) : decode w = .nop := by simp [decode, h]
theorem decode_clrBatt (h : opField w = 0x1#4) : decode w = .clrBatt := by simp [decode, h]
theorem decode_clrDp (h : opField w = 0x2#4) : decode w = .clrDp := by simp [decode, h]
theorem decode_clrGlyph (h : opField w = 0x3#4) : decode w = .clrGlyph := by simp [decode, h]
theorem decode_clrAll (h : opField w = 0x4#4) : decode w = .clrAll := by simp [decode, h]
theorem decode_wrText (h : opField w = 0x5#4) :
    decode w = .wrText (lenField w) (charField w 0) (charField w 1) (charField w 2)
      (charField w 3) (charField w 4) (charField w 5) := by simp [decode, h]
theorem decode_wrBatt (h : opField w = 0x6#4) : decode w = .wrBatt (charField w 0) := by simp [decode, h]
theorem decode_wrDp (h : opField w = 0x7#4) : decode w = .wrDp (charField w 0) := by simp [decode, h]
theorem decode_sendCmd (h : opField w = 0x8#4) : decode w = .sendCmd (charField w 0) := by simp [decode, h]
theorem decode_sendBuf (h : opField w = 0x9#4) : decode w = .sendBuf := by simp [decode, h]
theorem decode_reservedAB (h : opField w = 0xA#4 ∨ opField w = 0xB#4) : decode w = .reservedAB (opField w) := by
  rcases h with h | h <;> simp [decode, h]
theorem decode_reservedCF (h : 0xC ≤ (opField w).toNat) : decode w = .reservedCF (opField w) := by
  have hne : ∀ v : BitVec 4, v.toNat < 0xC → opField w ≠ v := by
    rintro v hv rfl
    omega
  unfold decode
  repeat rw [if_neg (hne _ (by decide))]
  rw [if_neg (not_or.mpr ⟨hne _ (by decide), hne _ (by decide)⟩)]

end

/-- The opcode of the decoded operation is the word's opcode field. -/
theorem opcode_decode (w : CmdWord) : (decode w).opcode = opField w := by
  rcases opField_cases w with h | h | h | h | h | h | h | h | h | h | h | h
  · rw [decode_nop h, h]; rfl
  · rw [decode_clrBatt h, h]; rfl
  · rw [decode_clrDp h, h]; rfl
  · rw [decode_clrGlyph h, h]; rfl
  · rw [decode_clrAll h, h]; rfl
  · rw [decode_wrText h, h]; rfl
  · rw [decode_wrBatt h, h]; rfl
  · rw [decode_wrDp h, h]; rfl
  · rw [decode_sendCmd h, h]; rfl
  · rw [decode_sendBuf h, h]; rfl
  · rw [decode_reservedAB h]; rfl
  · rw [decode_reservedCF h]; rfl

end Sys2Proof
end

