-- ==== Sys2Proof/Laws/Step.lean ====
section
/-!
SUPPORT. What an operation, a cycle of the transmitter and a step can do, each said once; later proofs cite these instead of unfolding.
-/

namespace Sys2Proof.Machine

/-! ### The meanings -/

/-- Everything an operation can do in its accept cycle: it answers a next state, and either only the buffer changes, to what
the operation leaves, or a packet is loaded into an otherwise unchanged block. -/
theorem exec_cases (i : Instr) (s : State) :
    exec i s = .next (s.withBuf (bufAfter s.cfg i s.buf)) ∨
    (∃ code, i = .sendCmd code ∧ exec i s = .next (loadPacket (pktCmd s.cfg code ++ 0#48) 16 s)) ∨
    (i = .sendBuf ∧ exec i s = .next (loadPacket (pktData s.cfg s.buf) 64 s)) := by
  cases i
  case clrAll =>
    refine .inl ?_
    simp only [exec, execClrAll, bufAfter]
    congr 2
    refine segBuf_ext_fields (fun k => ?_) (fun k => ?_)
    · rw [ovl_clearGlyphs, ovl_clearDp, ovl_clearBatt, isDpPos_eq_not]
      have hz : ∀ k, ovl ((⟨0#8, 0#8, 0#8, 0#8, 0#8, 0#8⟩ : SegBuf).get k) = false := by decide
      rw [hz]
      cases isBattPos k <;> simp
    · rw [glyph_clearGlyphs]
      revert k
      decide
  case sendCmd code => exact .inr (.inl ⟨code, rfl, rfl⟩)
  case sendBuf => exact .inr (.inr ⟨rfl, rfl⟩)
  all_goals exact .inl rfl

/-- An operation with an opcode below 8 changes the buffer and nothing else. -/
theorem exec_buffer {i : Instr} (s : State) (h : i.opcode.toNat < 8) :
    exec i s = .next (s.withBuf (bufAfter s.cfg i s.buf)) := by
  rcases exec_cases i s with h' | ⟨c, rfl, _⟩ | ⟨rfl, _⟩
  · exact h'
  · simp [Instr.opcode] at h
  · simp [Instr.opcode] at h

/-- Every operation answers a next state (spec/60_exceptions.md R152). -/
theorem exec_next (i : Instr) (s : State) : ∃ t, exec i s = .next t := by
  rcases exec_cases i s with h | ⟨_, _, h⟩ | ⟨_, h⟩ <;> exact ⟨_, h⟩

theorem loadPacket_present (P : BitVec 64) (n : Nat) {s : State} (h : s.cfg.csPresent = true) :
    loadPacket P n s = { s with shreg := P, nbits := n, bidx := 0, txPhase := .csLo } := by simp [loadPacket, h]

theorem loadPacket_absent (P : BitVec 64) (n : Nat) {s : State} (h : s.cfg.csPresent = false) :
    loadPacket P n s = s := by simp [loadPacket, h]

@[simp] theorem loadPacket_cfg (P : BitVec 64) (n : Nat) (s : State) : (loadPacket P n s).cfg = s.cfg := by
  unfold loadPacket; split <;> rfl
@[simp] theorem loadPacket_buf (P : BitVec 64) (n : Nat) (s : State) : (loadPacket P n s).buf = s.buf := by
  unfold loadPacket; split <;> rfl
@[simp] theorem loadPacket_pins (P : BitVec 64) (n : Nat) (s : State) : (loadPacket P n s).pins = s.pins := by
  unfold loadPacket; split <;> rfl
@[simp] theorem loadPacket_obs (P : BitVec 64) (n : Nat) (s : State) : (loadPacket P n s).obs = s.obs := by
  unfold loadPacket; split <;> rfl
@[simp] theorem loadPacket_inputs (P : BitVec 64) (n : Nat) (s : State) : (loadPacket P n s).inputs = s.inputs := by
  unfold loadPacket; split <;> rfl

/-- No operation changes the parameters, the pins, the observation or the host's signals in its accept cycle, and the buffer it
leaves is `bufAfter`. -/
theorem exec_frame {i : Instr} {s t : State} (h : exec i s = .next t) :
    t.cfg = s.cfg ∧ t.pins = s.pins ∧ t.obs = s.obs ∧ t.inputs = s.inputs ∧ t.buf = bufAfter s.cfg i s.buf := by
  rcases exec_cases i s with h' | ⟨_, rfl, h'⟩ | ⟨rfl, h'⟩ <;>
    · rw [h'] at h
      cases h
      simp [bufAfter]

/-! ### The transmitter -/

/-- A busy transmitter makes exactly one event: it emits on one pin, and the parameters, the buffer, the packet and the host's
signals stay. -/
theorem transmit_busy {s : State} (h : s.txPhase ≠ .idle) :
    ∃ pin l, (transmit s).obs = s.obs ++ [.emit pin l] ∧ (transmit s).pins = s.pins.set pin l ∧
      (transmit s).cfg = s.cfg ∧ (transmit s).buf = s.buf ∧ (transmit s).shreg = s.shreg ∧
      (transmit s).nbits = s.nbits ∧ (transmit s).inputs = s.inputs := by
  unfold transmit
  cases hp : s.txPhase
  case idle => exact absurd hp h
  case csLo => exact ⟨.csN, false, rfl, rfl, rfl, rfl, rfl, rfl, rfl⟩
  case bitD => exact ⟨.data, wireBit s, rfl, rfl, rfl, rfl, rfl, rfl, rfl⟩
  case bitCl => exact ⟨.clk, false, rfl, rfl, rfl, rfl, rfl, rfl, rfl⟩
  case bitCh =>
    refine ⟨.clk, true, ?_⟩
    dsimp only
    unfold phaseBitCh
    split <;> exact ⟨rfl, rfl, rfl, rfl, rfl, rfl, rfl⟩
  case csHi => exact ⟨.csN, true, rfl, rfl, rfl, rfl, rfl, rfl, rfl⟩

/-! ### The step -/

theorem ready_iff (s : State) : s.ready = true ↔ s.txPhase = .idle := by simp [State.ready]

theorem not_ready_iff (s : State) : s.ready = false ↔ s.txPhase ≠ .idle := by simp [State.ready]

theorem step_reset {s : State} (h : s.portNow.rst = true) : step s = .next (resetBlock s.nextPort) := by
  simp [step, cycle, h]

theorem step_busy {s : State} (hr : s.portNow.rst = false) (h : s.txPhase ≠ .idle) :
    step s = .next (transmit s.nextPort) := by simp [step, cycle, hr, h]

theorem step_accept {s : State} (h : s.accepts = true) :
    step s = exec (decode s.portNow.cmdWord) s.nextPort := by
  simp only [State.accepts, Bool.and_eq_true, Bool.not_eq_true', State.ready, decide_eq_true_eq] at h
  simp [step, cycle, h.1.1, h.1.2, h.2]

theorem step_quiet {s : State} (hr : s.portNow.rst = false) (hv : s.portNow.cmdValid = false)
    (h : s.txPhase = .idle) : step s = .next s.nextPort := by simp [step, cycle, hr, hv, h]

/-- Everything a step can do (spec/60_exceptions.md R154): reset, one transmitter cycle, the accepted operation, or nothing. -/
theorem step_cases (s : State) :
    (s.portNow.rst = true ∧ step s = .next (resetBlock s.nextPort)) ∨
    (s.portNow.rst = false ∧ s.txPhase ≠ .idle ∧ step s = .next (transmit s.nextPort)) ∨
    (s.accepts = true ∧ step s = exec (decode s.portNow.cmdWord) s.nextPort) ∨
    (s.portNow.rst = false ∧ s.portNow.cmdValid = false ∧ s.txPhase = .idle ∧ step s = .next s.nextPort) := by
  cases hr : s.portNow.rst
  · by_cases hp : s.txPhase = .idle
    · cases hv : s.portNow.cmdValid
      · exact .inr (.inr (.inr ⟨rfl, rfl, hp, step_quiet hr hv hp⟩))
      · have ha : s.accepts = true := by simp [State.accepts, State.ready, hr, hv, hp]
        exact .inr (.inr (.inl ⟨ha, step_accept ha⟩))
    · exact .inr (.inl ⟨rfl, hp, step_busy hr hp⟩)
  · exact .inl ⟨rfl, step_reset hr⟩

/-- Every step answers a next state, uses up one cycle of the host's signals and keeps the parameters. -/
theorem step_next (s : State) : ∃ t, step s = .next t ∧ t.inputs = s.inputs.tail ∧ t.cfg = s.cfg := by
  rcases step_cases s with ⟨_, h⟩ | ⟨_, hp, h⟩ | ⟨_, h⟩ | ⟨_, _, _, h⟩
  · exact ⟨_, h, rfl, rfl⟩
  · obtain ⟨_, _, _, _, hc, _, _, _, hi⟩ := transmit_busy (s := s.nextPort) hp
    exact ⟨_, h, hi, hc⟩
  · obtain ⟨t, ht⟩ := exec_next (decode s.portNow.cmdWord) s.nextPort
    obtain ⟨hc, _, _, hi, _⟩ := exec_frame ht
    exact ⟨t, h.trans ht, hi, hc⟩
  · exact ⟨_, h, rfl, rfl⟩

/-- A run of `k + 1` steps of a machine is a step and a run of `k`. -/
theorem core_run_succ (M : Host.Core) {s t : M.State} (k : Nat) (h : M.step s = .next t) :
    M.run (k + 1) s = M.run k t := by
  simp only [Host.Core.run, h]

@[simp] theorem run_zero (s : State) : run 0 s = .next s := rfl

theorem run_succ {s t : State} (k : Nat) (h : step s = .next t) : run (k + 1) s = run k t :=
  core_run_succ Sys2Proof.core k h

/-- Runs compose. -/
theorem run_add {s t : State} (j k : Nat) (h : run j s = .next t) : run (j + k) s = run k t := by
  induction j generalizing s with
  | zero =>
    cases h
    rw [Nat.zero_add]
  | succ j ih =>
    obtain ⟨u, hu, _⟩ := step_next s
    rw [run_succ j hu] at h
    rw [Nat.add_right_comm, run_succ _ hu, ih h]

end Sys2Proof.Machine
end

