-- ==== Sys2Proof/Laws/Packet.lean ====
section
/-!
SUPPORT. The bits of the two packets and of `buf_rd`, and the shape of a transaction's event list.
-/

namespace Sys2Proof.Machine

/-- A case split inside a wider one, flattened. -/
theorem ite_nested {α : Type} {p q : Prop} [Decidable p] [Decidable q] (h : q → p) (x y z : α) :
    (if p then (if q then x else y) else z) = if q then x else if p then y else z := by
  by_cases hq : q
  · simp [hq, h hq]
  · simp [hq]

theorem getLsbD_pktCmd (cfg : Config) (code : Byte) (k : Nat) :
    (pktCmd cfg code).getLsbD k =
      if k < 4 then false else if k < 12 then code.getLsbD (k - 4) else cfg.cmdTag.getLsbD (k - 12) := by
  unfold pktCmd
  repeat rw [BitVec.getLsbD_append]
  simp only [Nat.sub_sub, Nat.reduceAdd, BitVec.getLsbD_zero]
  repeat refine ite_congr (propext (by omega)) (fun _ => rfl) fun _ => ?_
  rfl

theorem getLsbD_pktData (cfg : Config) (b : SegBuf) (k : Nat) :
    (pktData cfg b).getLsbD k =
      if k < 7 then false else if k < 15 then b.b0.getLsbD (k - 7) else if k < 23 then b.b1.getLsbD (k - 15)
      else if k < 31 then b.b2.getLsbD (k - 23) else if k < 39 then b.b3.getLsbD (k - 31)
      else if k < 47 then b.b4.getLsbD (k - 39) else if k < 55 then b.b5.getLsbD (k - 47)
      else if k < 61 then startAddr.getLsbD (k - 55) else cfg.dataTag.getLsbD (k - 61) := by
  unfold pktData word0 word1 word2
  repeat rw [BitVec.getLsbD_append]
  simp only [Nat.sub_sub, Nat.reduceAdd, BitVec.getLsbD_zero]
  rw [ite_nested (p := k - 7 < 16) (by omega), ite_nested (p := k - 23 < 16) (by omega),
    ite_nested (p := k - 39 < 16) (by omega)]
  repeat refine ite_congr (propext (by omega)) (fun _ => rfl) fun _ => ?_
  rfl

theorem getLsbD_bufRd (s : State) (k : Nat) :
    s.bufRd.getLsbD k =
      if k < 8 then s.buf.b0.getLsbD k else if k < 16 then s.buf.b1.getLsbD (k - 8)
      else if k < 24 then s.buf.b2.getLsbD (k - 16) else if k < 32 then s.buf.b3.getLsbD (k - 24)
      else if k < 40 then s.buf.b4.getLsbD (k - 32) else s.buf.b5.getLsbD (k - 40) := by
  unfold State.bufRd
  repeat rw [BitVec.getLsbD_append]
  simp only [Nat.sub_sub, Nat.reduceAdd]
  repeat refine ite_congr (propext (by omega)) (fun _ => rfl) fun _ => ?_
  rfl

/-- A command packet left-aligned in the shift register: its wire bit `i` is bit `63 - i` (spec/43_transmitter.md R133). -/
theorem getLsbD_leftAligned (P : BitVec 16) (k : Nat) :
    (P ++ 0#48 : BitVec 64).getLsbD k = if k < 48 then false else P.getLsbD (k - 48) := by
  rw [BitVec.getLsbD_append]
  simp

/-- The pins after one more event. -/
@[simp] theorem pinsAfter_append (obs : List BusEvent) (e : BusEvent) :
    pinsAfter (obs ++ [e]) = applyEvent (pinsAfter obs) e := by simp [pinsAfter]

theorem flatMap_bitEvents_length (bits : Nat → Bool) (n : Nat) :
    ((List.range n).flatMap fun i => bitEvents (bits i)).length = 3 * n := by
  induction n with
  | zero => rfl
  | succ n ih =>
    rw [List.range_succ, List.flatMap_append, List.length_append, ih]
    simp [bitEvents]
    omega

end Sys2Proof.Machine
end

