-- ==== Sys2Proof/Laws/PerInstr.lean ====
section
/-!
SUPPORT. Statements made instruction by instruction. Family `EncodedOpcode`: the opcode field of an operation's encoding is the
opcode the table gives it (spec/30_encoding.md R61).
-/

namespace Sys2Proof.Laws.EncodedOpcode

def Statement (i : Instr) : Prop := opField (encode i) = i.opcode

theorem nop : Statement .nop := opField_formNone _
theorem clrBatt : Statement .clrBatt := opField_formNone _
theorem clrDp : Statement .clrDp := opField_formNone _
theorem clrGlyph : Statement .clrGlyph := opField_formNone _
theorem clrAll : Statement .clrAll := opField_formNone _
theorem wrText (len : BitVec 3) (c0 c1 c2 c3 c4 c5 : Byte) : Statement (.wrText len c0 c1 c2 c3 c4 c5) :=
  opField_formText _ _ _ _ _ _ _ _
theorem wrBatt (percent : Byte) : Statement (.wrBatt percent) := opField_formByte _ _
theorem wrDp (pos : Byte) : Statement (.wrDp pos) := opField_formByte _ _
theorem sendCmd (code : Byte) : Statement (.sendCmd code) := opField_formByte _ _
theorem sendBuf : Statement .sendBuf := opField_formNone _
theorem reservedAB (op : BitVec 4) : Statement (.reservedAB op) := opField_formNone _
theorem reservedCF (op : BitVec 4) : Statement (.reservedCF op) := opField_formNone _

end Sys2Proof.Laws.EncodedOpcode
end

