-- ==== Sys2Proof/Tests/Slice0.lean ====
section
/-!
SUPPORT. Tests. Expected results come from spec/95_test_vectors.md and from the examples of the rules named beside each test;
none is the model's own answer. The last part meets the hypotheses of every obligation that has some.
-/

namespace Sys2Proof.Tests

open Sys2Proof Sys2Proof.Machine

/-! ### Small states -/

/-- Twenty-six different letter patterns, for the tests alone: the spec gives none (spec/40_rom.md R85). -/
def testLetters : Vector Glyph 26 :=
  #v[1#7, 2#7, 3#7, 4#7, 5#7, 6#7, 7#7, 8#7, 9#7, 10#7, 11#7, 12#7, 13#7,
    14#7, 15#7, 16#7, 17#7, 18#7, 19#7, 20#7, 21#7, 22#7, 23#7, 24#7, 25#7, 26#7]

/-- The default parameters of spec/95_test_vectors.md, with the tests' letters. -/
def testCfg : Config := { Config.default with letterPat := testLetters, tCycle := 10 }

/-- The same with `LOWERCASE_MODE = DUP_UPPER`. -/
def lowerCfg : Config := { testCfg with lowercaseMode := .dupUpper }

/-- The same with `CS_PRESENT = false`. -/
def bareCfg : Config := { testCfg with csPresent := false }

def zeroBuf : SegBuf := ⟨0x00#8, 0x00#8, 0x00#8, 0x00#8, 0x00#8, 0x00#8⟩
def fullBuf : SegBuf := ⟨0xFF#8, 0xFF#8, 0xFF#8, 0xFF#8, 0xFF#8, 0xFF#8⟩

/-- An idle block with a given buffer. -/
def idleWith (b : SegBuf) : State := { State.reset with cfg := testCfg, buf := b }

/-- The buffer after one accepted word, if the step goes on. -/
def bufAfterStep (s : State) (w : CmdWord) : Option SegBuf :=
  match step (s.presenting w) with
  | .next t => some t.buf
  | .fault _ => none
  | .refused _ => none

/-- What one step changes of the transmitter: phase, bit index, pins and the last event. -/
def txAfterStep (s : State) : Option (TxPhase × Nat × Pins × Option BusEvent) :=
  match step s with
  | .next t => some (t.txPhase, t.bidx, t.pins, t.obs.getLast?)
  | .fault _ => none
  | .refused _ => none

/-- `SEND_CMD 0x06` under way, in a given phase (spec/95_test_vectors.md section 2.5). -/
def sendingOn (phase : TxPhase) (i : Nat) (p : Pins) : State :=
  { idleWith zeroBuf with shreg := 0x8060000000000000#64, nbits := 16, bidx := i, txPhase := phase, pins := p }

/-! ### Well-formedness: the ill-formed term of each check is refused -/

theorem test_wellFormed_reservedAB_refuses_other_opcodes :
    (Instr.reservedAB 0x3#4).wellFormed = false ∧ (Instr.reservedAB 0x9#4).wellFormed = false ∧
    (Instr.reservedAB 0xC#4).wellFormed = false := by decide

theorem test_wellFormed_reservedCF_refuses_other_opcodes :
    (Instr.reservedCF 0xB#4).wellFormed = false ∧ (Instr.reservedCF 0x0#4).wellFormed = false := by decide

theorem test_wellFormed_accepts_every_other_term :
    (Instr.wrText 7#3 0xFF#8 0#8 0#8 0#8 0#8 0#8).wellFormed = true ∧ (Instr.wrBatt 255#8).wellFormed = true ∧
    (Instr.wrDp 255#8).wellFormed = true ∧ (Instr.reservedAB 0xA#4).wellFormed = true ∧
    (Instr.reservedAB 0xB#4).wellFormed = true ∧ (Instr.reservedCF 0xC#4).wellFormed = true ∧
    (Instr.reservedCF 0xF#4).wellFormed = true := by decide

/-! ### Decoding: words written out from the encoding (spec/95_test_vectors.md section 2.2) -/

theorem test_decode_nop :
    decode 0x0000000000000000#64 = .nop ∧ decode 0x0FFFFFFFFFFFFFFF#64 = .nop := by decide

theorem test_decode_clrBatt : decode 0x1000000000000000#64 = .clrBatt := by decide

theorem test_decode_clrDp : decode 0x2000000000000000#64 = .clrDp := by decide

theorem test_decode_clrGlyph : decode 0x3000000000000000#64 = .clrGlyph := by decide

theorem test_decode_clrAll :
    decode 0x4000000000000000#64 = .clrAll ∧ decode 0x4ABCDEF012345678#64 = .clrAll := by decide

theorem test_decode_wrText :
    decode 0x560035343332312D#64 = .wrText 6#3 0x2D#8 0x31#8 0x32#8 0x33#8 0x34#8 0x35#8 ∧
    decode 0x5300000000622E61#64 = .wrText 3#3 0x61#8 0x2E#8 0x62#8 0#8 0#8 0#8 ∧
    decode 0x5FFF000000000038#64 = .wrText 7#3 0x38#8 0#8 0#8 0#8 0#8 0#8 ∧
    decode 0x5000000000000000#64 = .wrText 0#3 0#8 0#8 0#8 0#8 0#8 0#8 := by decide

theorem test_decode_wrBatt :
    decode 0x600000000000003C#64 = .wrBatt 60#8 ∧ decode 0x6000000000000064#64 = .wrBatt 100#8 := by decide

theorem test_decode_wrDp :
    decode 0x7000000000000002#64 = .wrDp 2#8 ∧ decode 0x7FFFFFFFFFFFFF02#64 = .wrDp 2#8 := by decide

theorem test_decode_sendCmd : decode 0x8000000000000006#64 = .sendCmd 0x06#8 := by decide

theorem test_decode_sendBuf : decode 0x9000000000000000#64 = .sendBuf := by decide

theorem test_decode_reserved_low :
    decode 0xA000000000000000#64 = .reservedAB 0xA#4 ∧ decode 0xBFFFFFFFFFFFFFFF#64 = .reservedAB 0xB#4 := by decide

theorem test_decode_reserved_high :
    decode 0xC000000000000000#64 = .reservedCF 0xC#4 ∧ decode 0xD000000000000001#64 = .reservedCF 0xD#4 ∧
    decode 0xE000000000000000#64 = .reservedCF 0xE#4 ∧ decode 0xFFFFFFFFFFFFFFFF#64 = .reservedCF 0xF#4 := by decide

theorem test_encode_is_the_written_word :
    encode (.wrText 6#3 0x2D#8 0x31#8 0x32#8 0x33#8 0x34#8 0x35#8) = 0x560035343332312D#64 ∧
    encode (.wrDp 2#8) = 0x7000000000000002#64 ∧ encode .sendBuf = 0x9000000000000000#64 := by decide

theorem test_decodeTableWord :
    decodeTableWord 64 0x600000000000003C = some (.wrBatt 60#8) ∧ decodeTableWord 65 0 = none := by decide

/-- The first step after reset runs the word that `withFetchWord` presents: `SEND_CMD 0x06` leaves IDLE with the packet 0x8060. -/
theorem test_withFetchWord_runs_after_reset :
    (match step (State.reset.withFetchWord 64 0x8000000000000006) with
      | .next t => some (t.shreg, t.nbits, t.txPhase)
      | .fault _ => none
      | .refused _ => none) = some (0x8060000000000000#64, 16, .csLo) := by decide

/-! ### The ROM (spec/95_test_vectors.md section 2.1) -/

theorem test_rom_digits_and_minus :
    rom testCfg 0x30#8 = 0x7D#7 ∧ rom testCfg 0x37#8 = 0x70#7 ∧ rom testCfg 0x39#8 = 0x7B#7 ∧ rom testCfg 0x2D#8 = 0x02#7 := by
  decide

theorem test_rom_letters :
    rom testCfg 0x41#8 = 1#7 ∧ rom testCfg 0x4F#8 = 15#7 ∧ rom testCfg 0x5A#8 = 26#7 ∧
    rom testCfg 0x61#8 = 0x00#7 ∧ rom testCfg 0x7A#8 = 0x00#7 ∧
    rom lowerCfg 0x61#8 = 1#7 ∧ rom lowerCfg 0x6F#8 = 15#7 ∧ rom lowerCfg 0x7A#8 = 26#7 := by decide

theorem test_rom_blank_beside_the_ranges :
    rom lowerCfg 0x20#8 = 0x00#7 ∧ rom lowerCfg 0x2F#8 = 0x00#7 ∧ rom lowerCfg 0x3A#8 = 0x00#7 ∧
    rom lowerCfg 0x40#8 = 0x00#7 ∧ rom lowerCfg 0x5B#8 = 0x00#7 ∧ rom lowerCfg 0x60#8 = 0x00#7 ∧
    rom lowerCfg 0x7B#8 = 0x00#7 ∧ rom lowerCfg 0xB0#8 = 0x00#7 := by decide

/-! ### Buffer operations, one step each (spec/95_test_vectors.md section 2.3) -/

theorem test_clrBatt :
    bufAfterStep (idleWith fullBuf) 0x1000000000000000#64 = some ⟨0x7F#8, 0x7F#8, 0x7F#8, 0xFF#8, 0xFF#8, 0xFF#8⟩ := by decide

theorem test_clrDp :
    bufAfterStep (idleWith fullBuf) 0x2000000000000000#64 = some ⟨0xFF#8, 0xFF#8, 0xFF#8, 0x7F#8, 0x7F#8, 0x7F#8⟩ := by decide

theorem test_clrGlyph :
    bufAfterStep (idleWith fullBuf) 0x3000000000000000#64 = some ⟨0x80#8, 0x80#8, 0x80#8, 0x80#8, 0x80#8, 0x80#8⟩ := by decide

theorem test_clrAll : bufAfterStep (idleWith fullBuf) 0x4000000000000000#64 = some zeroBuf := by decide

theorem test_nop : bufAfterStep (idleWith fullBuf) 0x0FFFFFFFFFFFFFFF#64 = some fullBuf := by decide

theorem test_reserved_opcodes :
    bufAfterStep (idleWith fullBuf) 0xA000000000000000#64 = some fullBuf ∧
    bufAfterStep (idleWith fullBuf) 0xFFFFFFFFFFFFFFFF#64 = some fullBuf := by decide

/-- `WR_TEXT len=1 "8"` over a full buffer keeps the battery flags and clears everything else. -/
theorem test_wrText_short :
    bufAfterStep (idleWith fullBuf) 0x5100000000000038#64 = some ⟨0xFF#8, 0x80#8, 0x80#8, 0x00#8, 0x00#8, 0x00#8⟩ := by decide

/-- `WR_TEXT len=6 "A-z 9."`: letter, minus, lowercase, space, digit, unsupported. -/
theorem test_wrText_classes :
    bufAfterStep (idleWith zeroBuf) 0x56002E39207A2D41#64 = some ⟨0x01#8, 0x02#8, 0x00#8, 0x00#8, 0x7B#8, 0x00#8⟩ := by decide

theorem test_wrBatt_boundaries :
    bufAfterStep (idleWith zeroBuf) 0x6000000000000019#64 = some zeroBuf ∧
    bufAfterStep (idleWith zeroBuf) 0x600000000000001A#64 = some ⟨0x00#8, 0x00#8, 0x80#8, 0x00#8, 0x00#8, 0x00#8⟩ ∧
    bufAfterStep (idleWith zeroBuf) 0x600000000000004B#64 = some ⟨0x00#8, 0x80#8, 0x80#8, 0x00#8, 0x00#8, 0x00#8⟩ ∧
    bufAfterStep (idleWith zeroBuf) 0x60000000000000FF#64 = some ⟨0x80#8, 0x80#8, 0x80#8, 0x00#8, 0x00#8, 0x00#8⟩ := by decide

theorem test_wrDp_positions :
    bufAfterStep (idleWith fullBuf) 0x7000000000000000#64 = some ⟨0xFF#8, 0xFF#8, 0xFF#8, 0x7F#8, 0x7F#8, 0x7F#8⟩ ∧
    bufAfterStep (idleWith fullBuf) 0x7000000000000001#64 = some ⟨0xFF#8, 0xFF#8, 0xFF#8, 0x7F#8, 0x7F#8, 0xFF#8⟩ ∧
    bufAfterStep (idleWith fullBuf) 0x7000000000000003#64 = some ⟨0xFF#8, 0xFF#8, 0xFF#8, 0xFF#8, 0x7F#8, 0x7F#8⟩ ∧
    bufAfterStep (idleWith fullBuf) 0x7000000000000004#64 = some ⟨0xFF#8, 0xFF#8, 0xFF#8, 0x7F#8, 0x7F#8, 0x7F#8⟩ := by decide

/-! ### Packets and sends (spec/95_test_vectors.md sections 2.4 and 2.5) -/

theorem test_pktCmd :
    pktCmd testCfg 0x06#8 = 0x8060#16 ∧ pktCmd testCfg 0xFF#8 = 0x8FF0#16 ∧ cmdBytes testCfg 0x52#8 = [0x85#8, 0x20#8] := by decide

theorem test_pktData :
    pktData testCfg ⟨0x00#8, 0x11#8, 0x22#8, 0x33#8, 0x44#8, 0x55#8⟩ = 0xA02AA21991088000#64 ∧
    pktData testCfg ⟨0x80#8, 0x80#8, 0x80#8, 0x80#8, 0x80#8, 0x80#8⟩ = 0xA040404040404000#64 ∧
    dataBytes testCfg ⟨0x00#8, 0x80#8, 0x80#8, 0x7A#8, 0xE0#8, 0x63#8⟩ =
      [0xA0#8, 0x31#8, 0xF0#8, 0x3D#8, 0x40#8, 0x40#8, 0x00#8, 0x00#8] := by decide

theorem test_sendBuf_loads :
    (match step ((idleWith ⟨0x02#8, 0x60#8, 0x3E#8, 0x7A#8, 0x63#8, 0x5B#8⟩).presenting 0x9000000000000000#64) with
      | .next t => some (t.shreg, t.nbits, t.bidx, t.txPhase)
      | .fault _ => none
      | .refused _ => none) = some (0xA02DB1BD1F300100#64, 64, 0, .csLo) := by decide

theorem test_send_without_chip_select :
    txAfterStep ({ idleWith fullBuf with cfg := bareCfg }.presenting 0x8000000000000006#64) =
      some (.idle, 0, Pins.idle, none) := by decide

/-- Cycle `t+1` of the trace. -/
theorem test_phase_csLo :
    txAfterStep (sendingOn .csLo 0 ⟨true, true, false⟩) =
      some (.bitD, 0, ⟨false, true, false⟩, some (.emit .csN false)) := by decide

/-- Cycle `t+29`: wire bit 9 of 0x8060 is 1. -/
theorem test_phase_bitD :
    txAfterStep (sendingOn .bitD 9 ⟨false, true, false⟩) =
      some (.bitCl, 9, ⟨false, true, true⟩, some (.emit .data true)) := by decide

/-- Cycle `t+30`. -/
theorem test_phase_bitCl :
    txAfterStep (sendingOn .bitCl 9 ⟨false, true, true⟩) =
      some (.bitCh, 9, ⟨false, false, true⟩, some (.emit .clk false)) := by decide

/-- Cycles `t+31` and `t+49`: the next bit, and the end of the packet. -/
theorem test_phase_bitCh :
    txAfterStep (sendingOn .bitCh 9 ⟨false, false, true⟩) =
      some (.bitD, 10, ⟨false, true, true⟩, some (.emit .clk true)) ∧
    txAfterStep (sendingOn .bitCh 15 ⟨false, false, false⟩) =
      some (.csHi, 15, ⟨false, true, false⟩, some (.emit .clk true)) := by decide

/-- Cycle `t+50`. -/
theorem test_phase_csHi :
    txAfterStep (sendingOn .csHi 15 ⟨false, true, false⟩) =
      some (.idle, 15, ⟨true, true, false⟩, some (.emit .csN true)) := by decide

/-- Reset in cycle `t+10` of the trace. -/
theorem test_reset_in_a_transaction :
    txAfterStep ((sendingOn .bitCh 2 ⟨false, false, false⟩).withPort ⟨true, true, 0x5100000000000038#64⟩) =
      some (.idle, 0, ⟨true, true, false⟩, some .reset) := by decide

/-- The host's boot sequence of program P1 (spec/95_test_vectors.md section 3, its codes from general knowledge), in R174's order. -/
theorem test_boot_sequence :
    (InitSeq.ops ⟨0x52#8, 0x30#8, 0x02#8, 0x06#8⟩).map encode =
      [0x8000000000000052#64, 0x8000000000000030#64, 0x8000000000000002#64, 0x8000000000000006#64] := by decide

/-- Lines of R67 and what is not one: a number above 255, seven characters, an operand too many. -/
theorem test_assembler_lines :
    assembleLine ['S', 'E', 'N', 'D', '_', 'C', 'M', 'D', ' ', '0', 'x', '0', '6'] = some [0x8000000000000006#64] ∧
    assembleLine ['W', 'R', '_', 'B', 'A', 'T', 'T', ' ', '6', '0'] = some [0x600000000000003C#64] ∧
    assembleLine ['W', 'R', '_', 'T', 'E', 'X', 'T', ' ', '"', 'a', '.', 'b', '"'] = some [0x5300000000622E61#64] ∧
    assembleLine ['W', 'R', '_', 'D', 'P', ' ', '2'] = some [0x7000000000000002#64] ∧
    assembleLine ['W', 'R', '_', 'B', 'A', 'T', 'T', ' ', '2', '5', '6'] = none ∧
    assembleLine ['W', 'R', '_', 'T', 'E', 'X', 'T', ' ', '"', '1', '2', '3', '4', '5', '6', '7', '"'] = none ∧
    assembleLine ['N', 'O', 'P', ' ', '1'] = none := by decide

/-! ### Witnesses: each obligation's hypotheses are met, clause by clause, at the boundaries of their ranges -/

/-- A state whose port presents a word. -/
def offering (w : CmdWord) : State := (idleWith fullBuf).withPort ⟨false, true, w⟩

/-- The third cycle of a transaction, pins, events and packet as the invariant asks. -/
def midTransaction : State :=
  { sendingOn .bitCl 0 ⟨false, true, true⟩ with obs := [.emit .csN false, .emit .data true] }

/-- The step's next state, for witnesses about runs. -/
def goesOn (o : Host.Outcome State Fault Refusal) : Bool :=
  match o with
  | .next _ => true
  | .fault _ => false
  | .refused _ => false

theorem witness_ResetCutsOffATransactionAndSendsNothing :
    ∃ s : State, s.portNow.rst = true ∧ s.txPhase ≠ .idle ∧
      (∀ p ∈ s.inputs.tail.take 2, p.rst = false ∧ p.cmdValid = false) ∧ s.inputs.tail.length = 2 :=
  ⟨{ midTransaction with inputs := [⟨true, true, 0#64⟩, PortIn.quiet, PortIn.quiet] }, by decide⟩

theorem witness_ResetThenTransmitterThenAcceptance :
    (midTransaction.withPort ⟨true, true, 0#64⟩).portNow.rst = true ∧
    ((midTransaction.withPort ⟨false, true, 0#64⟩).portNow.rst = false ∧
      (midTransaction.withPort ⟨false, true, 0#64⟩).txPhase ≠ .idle) ∧
    ((offering 0#64).portNow.rst = false ∧ (offering 0#64).txPhase = .idle ∧ (offering 0#64).portNow.cmdValid = true) ∧
    ((idleWith zeroBuf).portNow.rst = false ∧ (idleWith zeroBuf).txPhase = .idle ∧
      (idleWith zeroBuf).portNow.cmdValid = false) := by decide

theorem witness_StepRunsTheAcceptedOperation :
    ((offering 0x7000000000000002#64).accepts = true ∧
      decode (offering 0x7000000000000002#64).portNow.cmdWord = .wrDp 2#8) ∧
    decodeTableWord 64 0x9000000000000000 = some .sendBuf ∧ Instr.sendBuf.wellFormed = true := by decide

theorem witness_BufRdShowsEveryBufferByte : (offering 0x4000000000000000#64).accepts = true := by decide

theorem witness_BusyBlockIgnoresTheCommandPort :
    midTransaction.ready = false ∧ (⟨false, true, 0x4000000000000000#64⟩ : PortIn).rst = false := by decide

theorem witness_EveryRunGoesOnWithTheSameParameters :
    goesOn (run 0 midTransaction) = true ∧ goesOn (run 3 midTransaction) = true := by decide

theorem witness_DecodeOfEncodeIsTheOperation :
    (Instr.reservedAB 0xA#4).wellFormed = true ∧ (Instr.reservedAB 0xB#4).wellFormed = true ∧
    (Instr.reservedCF 0xC#4).wellFormed = true ∧ (Instr.reservedCF 0xF#4).wellFormed = true ∧
    (Instr.wrText 7#3 0xFF#8 0xFF#8 0xFF#8 0xFF#8 0xFF#8 0xFF#8).wellFormed = true := by decide

theorem witness_IgnoredBitsHaveNoEffect :
    (0x5FFF000000000038#64 &&& usedBits 0x5FFF000000000038#64 = 0x5700000000000038#64 &&& usedBits 0x5700000000000038#64) ∧
    (0x5FFF000000000038#64 ≠ 0x5700000000000038#64) := by decide

theorem witness_RomMapsEachCodeAsTheDefinitionSays :
    lowerCfg.lowercaseMode = .dupUpper ∧
    (∀ c ∈ [0x00#8, 0x2F#8, 0x3A#8, 0x40#8, 0x5B#8, 0x60#8, 0x7B#8, 0xFF#8],
      ¬(0x30 ≤ c.toNat ∧ c.toNat ≤ 0x39) ∧ ¬(0x41 ≤ c.toNat ∧ c.toNat ≤ 0x5A) ∧ c ≠ 0x2D#8 ∧
      ¬(0x61 ≤ c.toNat ∧ c.toNat ≤ 0x7A ∧ lowerCfg.lowercaseMode = .dupUpper)) ∧
    ¬((0x61 : Nat) ≤ (0x61#8).toNat ∧ (0x61#8).toNat ≤ 0x7A ∧ testCfg.lowercaseMode = .dupUpper) := by decide

theorem witness_RomWorkedExamplesUnderTheDefaults :
    (testCfg.digitPat = Config.defaultDigitPat ∧ testCfg.minusPat = 0x02#7 ∧ testCfg.lowercaseMode = .blank) ∧
    (lowerCfg.digitPat = Config.defaultDigitPat ∧ lowerCfg.minusPat = 0x02#7 ∧ lowerCfg.lowercaseMode = .dupUpper) := by decide

theorem witness_ClrBattClearsTheBatteryFlagsOnly :
    opField 0x1ABC000000000000#64 = 0x1#4 ∧
    (∀ i : Fin 6, i.val < 3 → ovl ((idleWith zeroBuf).buf.get i) = false) ∧
    ∃ s : State, s.buf = ⟨0x80#8, 0xFF#8, 0x7F#8, 0x80#8, 0x00#8, 0x00#8⟩ :=
  ⟨by decide, by decide, idleWith _, rfl⟩

theorem witness_ClrDpClearsTheDecimalPointFlagsOnly :
    opField 0x2000000000000000#64 = 0x2#4 ∧ ∃ s : State, s.buf = ⟨0x80#8, 0x00#8, 0x00#8, 0x80#8, 0xE0#8, 0xFF#8⟩ :=
  ⟨by decide, idleWith _, rfl⟩

theorem witness_ClrGlyphClearsTheGlyphsOnly :
    opField 0x3000000000000000#64 = 0x3#4 ∧ (idleWith fullBuf).buf = ⟨0xFF#8, 0xFF#8, 0xFF#8, 0xFF#8, 0xFF#8, 0xFF#8⟩ ∧
    ∃ s : State, s.buf = ⟨0x7D#8, 0xE0#8, 0x3E#8, 0xFA#8, 0x63#8, 0x5B#8⟩ :=
  ⟨by decide, rfl, idleWith _, rfl⟩

theorem witness_ClrAllZeroesTheBufferOnly :
    opField 0x4ABCDEF012345678#64 = 0x4#4 ∧ (offering 0x4ABCDEF012345678#64).accepts = true ∧
    decode (offering 0x4ABCDEF012345678#64).portNow.cmdWord = .clrAll := by decide

/-- The lengths where the clauses meet: 0 (every position past the end), 6 and 7 (none). -/
theorem witness_WrTextWritesTheGlyphsAndClearsTheDecimalPoint :
    opField 0x5000000000000000#64 = 0x5#4 ∧ ((5 : Fin 6).val < min (6#3).toNat 6) ∧ ((5 : Fin 6).val < min (7#3).toNat 6) ∧
    (min (0#3).toNat 6 ≤ (0 : Fin 6).val) ∧ (min (5#3).toNat 6 ≤ (5 : Fin 6).val) ∧
    (idleWith zeroBuf).cfg.digitPat = Config.defaultDigitPat ∧ (idleWith zeroBuf).cfg.minusPat = 0x02#7 ∧
    (idleWith zeroBuf).buf = ⟨0x00#8, 0x00#8, 0x00#8, 0x00#8, 0x00#8, 0x00#8⟩ := by decide

theorem witness_WrBattSetsTheBarsAboveTheThresholds :
    opField 0x600000000000003C#64 = 0x6#4 ∧
    (idleWith zeroBuf).buf = ⟨0x00#8, 0x00#8, 0x00#8, 0x00#8, 0x00#8, 0x00#8⟩ := by decide

theorem witness_WrDpSetsTheFlagCountedFromTheRight :
    opField 0x7FFFFFFFFFFFFF02#64 = 0x7#4 ∧ ∃ s : State, s.buf = ⟨0x00#8, 0x00#8, 0x00#8, 0x7A#8, 0x60#8, 0x63#8⟩ :=
  ⟨by decide, idleWith _, rfl⟩

theorem witness_NopAndReservedOpcodesChangeNothing :
    opField 0x0FFFFFFFFFFFFFFF#64 = 0x0#4 ∧
    ((offering 0#64).accepts = true ∧ opField (offering 0#64).portNow.cmdWord = 0x0#4) ∧
    ((offering 0xA000000000000000#64).accepts = true ∧
      0xA ≤ (opField (offering 0xA000000000000000#64).portNow.cmdWord).toNat) ∧
    ((offering 0xFFFFFFFFFFFFFFFF#64).accepts = true ∧
      0xA ≤ (opField (offering 0xFFFFFFFFFFFFFFFF#64).portNow.cmdWord).toNat) := by decide

theorem witness_BufferOperationsTakeOneCycleWithoutPinEvents :
    ((offering 0x7000000000000001#64).accepts = true ∧ (opField (offering 0x7000000000000001#64).portNow.cmdWord).toNat < 8) ∧
    (midTransaction.ready = false ∧ midTransaction.portNow.rst = false) := by decide

theorem witness_WritesStayInsideTheAccessTable :
    ∃ s s' : State, s.cfg = s'.cfg ∧ s.buf ≠ s'.buf := ⟨idleWith zeroBuf, idleWith fullBuf, rfl, by decide⟩

theorem witness_BufferOperationsAreIdempotent :
    (Instr.wrText 7#3 0#8 0#8 0#8 0#8 0#8 0#8).opcode.toNat < 8 ∧ (Instr.wrDp 0#8).opcode.toNat < 8 := by decide

theorem witness_ClearsAndFlagWritesCommute :
    [Instr.clrGlyph, .clrBatt, .clrDp] ∈ [Instr.clrBatt, .clrDp, .clrGlyph].permutations := by
  rw [List.mem_permutations]; decide

theorem witness_CharactersPastTheEffectiveLengthAreNotLookedUp :
    (min (6#3).toNat 6 = min (7#3).toNat 6) ∧
    (∀ i : Fin 6, i.val < min (1#3).toNat 6 →
      charAt 0x38#8 0x31#8 0x32#8 0x33#8 0x34#8 0x35#8 i = charAt 0x38#8 0#8 0#8 0#8 0#8 0#8 i) ∧
    (min (1#3).toNat 6 ≤ (1 : Fin 6).val) := by decide

theorem witness_UnsupportedDecimalPositionsOnlyClear :
    ((0#8).toNat = 0 ∨ 3 < (0#8).toNat) ∧ ((4#8).toNat = 0 ∨ 3 < (4#8).toNat) ∧
    ((255#8).toNat = 0 ∨ 3 < (255#8).toNat) ∧ ¬((3#8).toNat = 0 ∨ 3 < (3#8).toNat) := by decide

theorem witness_CommandPacketHasTagCodeAndPadding : pktCmd testCfg 0x06#8 = pktCmd testCfg 0x06#8 := rfl

theorem witness_DataPacketHoldsEveryBufferBitOnce : pktData testCfg fullBuf = pktData testCfg fullBuf := rfl

theorem witness_SendCmdLoadsTheCommandPacket :
    opField 0x8000000000000006#64 = 0x8#4 ∧
    ((idleWith zeroBuf).cfg.csPresent = true ∧ (idleWith zeroBuf).cfg.cmdTag = 0b1000#4) ∧
    ({ idleWith zeroBuf with cfg := bareCfg } : State).cfg.csPresent = false := by decide

theorem witness_SendBufLoadsASnapshotOfTheBuffer :
    opField 0x9000000000000000#64 = 0x9#4 ∧
    ({ idleWith zeroBuf with cfg := bareCfg } : State).cfg.csPresent = false ∧
    ((idleWith zeroBuf).cfg.csPresent = true ∧ (idleWith zeroBuf).buf = State.reset.buf) ∧
    ∃ s : State, s.cfg.csPresent = true ∧ s.cfg.dataTag = 0b101#3 ∧
      s.buf = ⟨0x02#8, 0x60#8, 0x3E#8, 0x7A#8, 0x63#8, 0x5B#8⟩ :=
  ⟨by decide, by decide, by decide, idleWith _, rfl, rfl, rfl⟩

theorem witness_NoChipSelectMeansNoTransaction :
    ∃ s : State, s.cfg.csPresent = false ∧ s.txPhase = .idle ∧ s.noReset 3 ∧ s.accepts = true ∧ s.inputs.length = 3 ∧
      decode s.portNow.cmdWord = .sendBuf :=
  ⟨{ idleWith fullBuf with cfg := bareCfg, inputs := List.replicate 3 ⟨false, true, 0x9000000000000000#64⟩ }, by decide⟩

theorem witness_EachPhaseMakesItsOneEvent :
    (∀ p ∈ [TxPhase.csLo, .bitD, .bitCl, .csHi],
      (sendingOn p 0 Pins.idle).portNow.rst = false ∧ (sendingOn p 0 Pins.idle).txPhase = p) ∧
    ((sendingOn .bitD 63 Pins.idle).txPhase = .bitD ∧ (sendingOn .bitD 63 Pins.idle).bidx < 64) ∧
    ((sendingOn .bitCh 14 Pins.idle).txPhase = .bitCh ∧
      (sendingOn .bitCh 14 Pins.idle).bidx + 1 < (sendingOn .bitCh 14 Pins.idle).nbits) ∧
    ((sendingOn .bitCh 15 Pins.idle).txPhase = .bitCh ∧
      (sendingOn .bitCh 15 Pins.idle).nbits ≤ (sendingOn .bitCh 15 Pins.idle).bidx + 1) := by decide

/-- A host that keeps presenting other words while the send is under way. -/
def sendThen (w : CmdWord) : State :=
  { idleWith fullBuf with
    inputs := ⟨false, true, w⟩ :: List.replicate 60 ⟨false, true, 0x4000000000000000#64⟩ }

theorem witness_AcceptedSendMakesExactlyOneTransaction :
    ((sendThen 0x8000000000000006#64).accepts = true ∧ (sendThen 0x8000000000000006#64).cfg.csPresent = true ∧
      (sendThen 0x8000000000000006#64).noReset 51 ∧
      decode (sendThen 0x8000000000000006#64).portNow.cmdWord = .sendCmd 0x06#8) ∧
    ((sendThen 0x9000000000000000#64).accepts = true ∧ (sendThen 0x9000000000000000#64).cfg.csPresent = true ∧
      (sendThen 0x9000000000000000#64).noReset 195 ∧
      decode (sendThen 0x9000000000000000#64).portNow.cmdWord = .sendBuf) := by decide

/-- `SEND_CMD 0x06` under way, with the events seen so far. -/
def sendingSeen (phase : TxPhase) (i : Nat) (p : Pins) (es : List BusEvent) : State :=
  { sendingOn phase i p with obs := es }

/-- The invariant holds in the idle block, in every phase of a command, and at the start of a data packet. -/
theorem witness_EveryStepKeepsTheInvariant_idle : (idleWith fullBuf).Inv := by decide

theorem witness_EveryStepKeepsTheInvariant_csLo : (sendingOn .csLo 0 Pins.idle).Inv := by decide

theorem witness_EveryStepKeepsTheInvariant_bitD :
    (sendingSeen .bitD 0 ⟨false, true, false⟩ [.emit .csN false]).Inv := by decide

theorem witness_EveryStepKeepsTheInvariant_bitCl : midTransaction.Inv := by decide

theorem witness_EveryStepKeepsTheInvariant_bitCh :
    (sendingSeen .bitCh 0 ⟨false, false, true⟩ [.emit .csN false, .emit .data true, .emit .clk false]).Inv := by decide

theorem witness_EveryStepKeepsTheInvariant_csHi :
    (sendingSeen .csHi 15 ⟨false, true, false⟩ [.emit .csN false]).Inv := by decide

/-- A data packet just loaded. -/
def sendingData : State := { idleWith fullBuf with shreg := pktData testCfg fullBuf, nbits := 64, txPhase := .csLo }

theorem witness_EveryStepKeepsTheInvariant_data : sendingData.Inv := by decide

theorem witness_EveryStepKeepsTheInvariant_goes_on : goesOn (step midTransaction) = true := by decide

theorem witness_DataIsStableAroundTheClockEdges :
    midTransaction.Inv ∧ midTransaction.portNow.rst = false ∧ midTransaction.txPhase = .bitCl := by decide

/-- The three cases of a step; and in the invariant an event without a level change, `emit(DATA, 0)` over a low `DATA`. -/
theorem witness_EachStepAddsAtMostOneEvent :
    (midTransaction.withPort ⟨true, true, 0#64⟩).portNow.rst = true ∧
    (midTransaction.portNow.rst = false ∧ midTransaction.ready = false) ∧
    ((idleWith fullBuf).portNow.rst = false ∧ (idleWith fullBuf).ready = true) ∧
    (sendingSeen .bitD 1 ⟨false, true, false⟩ [.emit .csN false]).Inv ∧
    visible (sendingSeen .bitD 1 ⟨false, true, false⟩ [.emit .csN false]).pins (.emit .data false) = false := by decide

theorem witness_BusyIsLiftedWithin194Cycles :
    midTransaction.Inv ∧ midTransaction.noReset 194 ∧ midTransaction.ready = false := by decide

/-- A host that holds an operation through a transaction. -/
def held : State := { midTransaction with inputs := List.replicate 60 ⟨false, true, 0x5100000000000038#64⟩ }

theorem witness_held_keeps_duty : hostKeepsDuty 195 held = true := by decide

theorem witness_HeldOperationIsAcceptedAtTheFirstReadyCycle :
    held.Inv ∧ held.noReset 195 ∧ hostKeepsDuty 195 held = true ∧ held.portNow.cmdValid = true ∧ held.ready = false :=
  ⟨by decide, by decide, witness_held_keeps_duty, by decide, by decide⟩

theorem witness_HostRunRefinesRunToCompletion : (idleWith fullBuf).ready = true := by decide

/-- Every number up to 255 has a text, in decimal and in hexadecimal; `0x06` is the spec's own text of 6. -/
theorem witness_NumberText (n : Nat) (h : n ≤ 255) : (∃ t, NumberText t n ∧ t.length = 3) ∧ ∃ t, NumberText t n ∧ t.length = 4 := by
  refine ⟨⟨_, .inl ⟨[⟨n / 100, by omega⟩, ⟨n / 10 % 10, by omega⟩, ⟨n % 10, by omega⟩], by simp, rfl, ?_⟩, rfl⟩,
    _, .inr ⟨[(⟨n / 16, by omega⟩, true), (⟨n % 16, by omega⟩, false)], by simp, rfl, ?_⟩, rfl⟩
  · simp only [numberOf, List.map_cons, List.map_nil, List.foldl_cons, List.foldl_nil]; omega
  · simp only [numberOf, List.map_cons, List.map_nil, List.foldl_cons, List.foldl_nil]; omega

theorem witness_NumberText_spelled :
    NumberText ['6', '0'] 60 ∧ NumberText ['2', '5', '5'] 255 ∧ NumberText ['0'] 0 ∧
    NumberText ['0', 'x', '0', '6'] 6 ∧ NumberText ['0', 'x', 'F', 'f'] 255 :=
  ⟨.inl ⟨[6, 0], by decide, by decide, by decide⟩, .inl ⟨[2, 5, 5], by decide, by decide, by decide⟩,
    .inl ⟨[0], by decide, by decide, by decide⟩, .inr ⟨[(0, false), (6, false)], by decide, by decide, by decide⟩,
    .inr ⟨[(15, true), (15, false)], by decide, by decide, by decide⟩⟩

theorem witness_AssemblerLinesStandForTheirOperations :
    (['~', '"', ' ', '1', '2', '3'] : List Char).length ≤ 6 ∧
    (∀ c ∈ (['~', '"', ' ', '1', '2', '3'] : List Char), 0x20 ≤ c.toNat ∧ c.toNat ≤ 0x7E) := by simp

end Sys2Proof.Tests
end

/-!
The invariant of the block: what it says phase by phase, and that reset, the transmitter and every accepted operation keep it
(spec/10_state.md R34, spec/43_transmitter.md R132 to R136).
-/
namespace Sys2Proof.Machine

/-! ### What `State.Inv` says in each phase -/

section
variable {s : State}

theorem inv_idle_iff (hp : s.txPhase = .idle) : s.Inv ↔ s.pins = pinsAfter s.obs ∧ s.pins = Pins.idle := by
  simp [State.Inv, hp]

theorem inv_csLo_iff (hp : s.txPhase = .csLo) :
    s.Inv ↔ s.pins = pinsAfter s.obs ∧ (s.pins = Pins.idle ∧ s.bidx = 0) ∧ s.PacketLoaded ∧ s.bidx < s.nbits := by
  simp [State.Inv, hp]

theorem inv_bitD_iff (hp : s.txPhase = .bitD) :
    s.Inv ↔ s.pins = pinsAfter s.obs ∧ (s.pins.csN = false ∧ s.pins.clk = true) ∧
      s.PacketLoaded ∧ s.bidx < s.nbits := by
  simp [State.Inv, hp]

theorem inv_bitCl_iff (hp : s.txPhase = .bitCl) :
    s.Inv ↔ s.pins = pinsAfter s.obs ∧ s.pins = ⟨false, true, wireBit s⟩ ∧ s.PacketLoaded ∧ s.bidx < s.nbits := by
  simp [State.Inv, hp]

theorem inv_bitCh_iff (hp : s.txPhase = .bitCh) :
    s.Inv ↔ s.pins = pinsAfter s.obs ∧ s.pins = ⟨false, false, wireBit s⟩ ∧ s.PacketLoaded ∧ s.bidx < s.nbits := by
  simp [State.Inv, hp]

theorem inv_csHi_iff (hp : s.txPhase = .csHi) :
    s.Inv ↔ s.pins = pinsAfter s.obs ∧ (s.pins = ⟨false, true, wireBit s⟩ ∧ s.bidx + 1 = s.nbits) ∧
      s.PacketLoaded ∧ s.bidx < s.nbits := by
  simp [State.Inv, hp]

end

/-- The invariant says nothing of the host's signals. -/
theorem inv_nextPort {s : State} : s.nextPort.Inv ↔ s.Inv := Iff.rfl

/-- Settles O44: in the idle block with nothing observed, the pins hold the levels of reset. -/
theorem resetMeetsTheInvariant : Obligations.ResetMeetsTheInvariant := by
  unfold Obligations.ResetMeetsTheInvariant
  exact (inv_idle_iff rfl).2 ⟨rfl, rfl⟩

theorem inv_resetBlock (s : State) : (resetBlock s).Inv :=
  (inv_idle_iff rfl).2 ⟨by simp [applyEvent], rfl⟩

/-! ### The packet in the shift register -/

/-- The code field of a command packet, left-aligned in the shift register, is its command code. -/
theorem extractLsb'_leftAligned_pktCmd (cfg : Config) (code : Byte) :
    (pktCmd cfg code ++ 0#48).extractLsb' 52 8 = code := by
  apply BitVec.eq_of_getLsbD_eq
  intro k hk
  rw [BitVec.getLsbD_extractLsb', getLsbD_leftAligned, if_neg (by omega), getLsbD_pktCmd, if_neg (by omega),
    if_pos (by omega), show 52 + k - 48 - 4 = k by omega]
  simp [hk]

/-- What is loaded is the packet of some command, or of the buffer as it stands. -/
theorem packetLoaded_iff {s : State} :
    s.PacketLoaded ↔ s.cfg.csPresent = true ∧
      ((s.nbits = 16 ∧ ∃ code, s.shreg = pktCmd s.cfg code ++ 0#48) ∨
        (s.nbits = 64 ∧ s.shreg = pktData s.cfg s.buf)) := by
  have hcmd : s.shreg = pktCmd s.cfg (s.shreg.extractLsb' 52 8) ++ 0#48 ↔
      ∃ code, s.shreg = pktCmd s.cfg code ++ 0#48 := by
    constructor
    · exact fun h => ⟨_, h⟩
    · rintro ⟨code, h⟩
      rw [h, extractLsb'_leftAligned_pktCmd]
  rw [State.PacketLoaded, hcmd]

/-- The last wire bit of either packet is a padding zero (spec/42_packet_ops.md R110, R113). -/
theorem wireBit_last {s : State} (hloaded : s.PacketLoaded) (hlast : s.bidx + 1 = s.nbits) : wireBit s = false := by
  obtain ⟨-, ⟨hn, code, hshreg⟩ | ⟨hn, hshreg⟩⟩ := packetLoaded_iff.1 hloaded
  · have hbidx : s.bidx = 15 := by omega
    rw [wireBit, hbidx, hshreg, getLsbD_leftAligned, getLsbD_pktCmd]
    rfl
  · have hbidx : s.bidx = 63 := by omega
    rw [wireBit, hbidx, hshreg, getLsbD_pktData]
    rfl

/-! ### The transmitter keeps the invariant -/

/-- An event keeps the pins at the levels of the observation. -/
theorem emit_pins_eq_pinsAfter {s : State} (pin : Pin) (l : Bool) (h : s.pins = pinsAfter s.obs) :
    (emit pin l s).pins = pinsAfter (emit pin l s).obs := by
  simp [applyEvent, h]

section
variable {s : State}

theorem inv_phaseCsLo (hp : s.txPhase = .csLo) (h : s.Inv) : (phaseCsLo s).Inv := by
  obtain ⟨hobs, ⟨hpins, -⟩, hpacket⟩ := (inv_csLo_iff hp).1 h
  refine (inv_bitD_iff rfl).2 ⟨emit_pins_eq_pinsAfter .csN false hobs, ⟨rfl, ?_⟩, hpacket⟩
  simp [phaseCsLo, hpins, Pins.idle]

theorem inv_phaseBitD (hp : s.txPhase = .bitD) (h : s.Inv) : (phaseBitD s).Inv := by
  obtain ⟨hobs, ⟨hcsN, hclk⟩, hpacket⟩ := (inv_bitD_iff hp).1 h
  refine (inv_bitCl_iff rfl).2 ⟨emit_pins_eq_pinsAfter .data (wireBit s) hobs, ?_, hpacket⟩
  simp [phaseBitD, hcsN, hclk, wireBit]

theorem inv_phaseBitCl (hp : s.txPhase = .bitCl) (h : s.Inv) : (phaseBitCl s).Inv := by
  obtain ⟨hobs, hpins, hpacket⟩ := (inv_bitCl_iff hp).1 h
  refine (inv_bitCh_iff rfl).2 ⟨emit_pins_eq_pinsAfter .clk false hobs, ?_, hpacket⟩
  simp [phaseBitCl, hpins, wireBit]

/-- Either the next bit is inside the packet, or this was the last one. -/
theorem inv_phaseBitCh (hp : s.txPhase = .bitCh) (h : s.Inv) : (phaseBitCh s).Inv := by
  obtain ⟨hobs, hpins, hloaded, hlt⟩ := (inv_bitCh_iff hp).1 h
  have hobs' := emit_pins_eq_pinsAfter .clk true hobs
  unfold phaseBitCh
  split
  case isTrue hmore =>
    refine (inv_bitD_iff rfl).2 ⟨hobs', ⟨?_, rfl⟩, hloaded, hmore⟩
    simp [hpins]
  case isFalse hdone =>
    have hlast : s.bidx + 1 = s.nbits := by omega
    refine (inv_csHi_iff rfl).2 ⟨hobs', ⟨?_, hlast⟩, hloaded, hlt⟩
    simp [hpins, wireBit]

/-- The last wire bit is 0, so `DATA` is back at its idle level when the chip-select is released. -/
theorem inv_phaseCsHi (hp : s.txPhase = .csHi) (h : s.Inv) : (phaseCsHi s).Inv := by
  obtain ⟨hobs, ⟨hpins, hlast⟩, hloaded, -⟩ := (inv_csHi_iff hp).1 h
  refine (inv_idle_iff rfl).2 ⟨emit_pins_eq_pinsAfter .csN true hobs, ?_⟩
  simp [phaseCsHi, hpins, wireBit_last hloaded hlast, Pins.idle]

theorem inv_transmit (h : s.Inv) : (transmit s).Inv := by
  unfold transmit
  cases hp : s.txPhase
  case idle => exact h
  case csLo => exact inv_phaseCsLo hp h
  case bitD => exact inv_phaseBitD hp h
  case bitCl => exact inv_phaseBitCl hp h
  case bitCh => exact inv_phaseBitCh hp h
  case csHi => exact inv_phaseCsHi hp h

end

/-! ### An accepted operation keeps the invariant -/

/-- In the idle block the invariant says nothing of the buffer. -/
theorem inv_withBuf {s : State} (hp : s.txPhase = .idle) (b : SegBuf) (h : s.Inv) : (s.withBuf b).Inv :=
  (inv_idle_iff (s := s.withBuf b) hp).2 ((inv_idle_iff hp).1 h)

/-- Loading a packet of a command, or of the buffer, into the idle block starts a transaction of the invariant. -/
theorem inv_loadPacket {s : State} {P : BitVec 64} {n : Nat} (hp : s.txPhase = .idle) (h : s.Inv)
    (hP : (n = 16 ∧ ∃ code, P = pktCmd s.cfg code ++ 0#48) ∨ (n = 64 ∧ P = pktData s.cfg s.buf)) :
    (loadPacket P n s).Inv := by
  cases hcs : s.cfg.csPresent
  case false => rwa [loadPacket_absent P n hcs]
  case true =>
    obtain ⟨hobs, hpins⟩ := (inv_idle_iff hp).1 h
    have hn : 0 < n := by omega
    rw [loadPacket_present P n hcs]
    exact (inv_csLo_iff rfl).2 ⟨hobs, ⟨hpins, rfl⟩, packetLoaded_iff.2 ⟨hcs, hP⟩, hn⟩

theorem inv_exec {i : Instr} {s t : State} (hp : s.txPhase = .idle) (h : s.Inv) (ht : exec i s = .next t) : t.Inv := by
  rcases exec_cases i s with hbuf | ⟨code, -, hcmd⟩ | ⟨-, hdata⟩
  · cases hbuf.symm.trans ht
    exact inv_withBuf hp (bufAfter s.cfg i s.buf) h
  · cases hcmd.symm.trans ht
    exact inv_loadPacket hp h (.inl ⟨rfl, code, rfl⟩)
  · cases hdata.symm.trans ht
    exact inv_loadPacket hp h (.inr ⟨rfl, rfl⟩)

/-- An operation is accepted in the idle block only (spec/10_state.md R31, R32). -/
theorem txPhase_of_accepts {s : State} (h : s.accepts = true) : s.txPhase = .idle := by
  simp only [State.accepts, Bool.and_eq_true] at h
  exact (ready_iff s).1 h.2

/-- Settles O45, by the four cases of a step: a reset makes the idle block, the transmitter keeps the invariant phase by phase, an
accepted operation finds the block idle, and a quiet cycle changes the ports only. -/
theorem everyStepKeepsTheInvariant : Obligations.EveryStepKeepsTheInvariant := by
  unfold Obligations.EveryStepKeepsTheInvariant
  intro s h t ht
  rcases step_cases s with ⟨-, hreset⟩ | ⟨-, -, hbusy⟩ | ⟨haccepts, haccept⟩ | ⟨-, -, -, hquiet⟩
  · cases hreset.symm.trans ht
    exact inv_resetBlock _
  · cases hbusy.symm.trans ht
    exact inv_transmit (inv_nextPort.2 h)
  · have hidle : s.txPhase = .idle := txPhase_of_accepts haccepts
    exact inv_exec (s := s.nextPort) hidle (inv_nextPort.2 h) (haccept.symm.trans ht)
  · cases hquiet.symm.trans ht
    exact inv_nextPort.2 h

end Sys2Proof.Machine

/-!
The access table of the buffer (spec/10_state.md R23), the buffer's read port (R33) and the reset buffer (R24).
-/
namespace Sys2Proof.Machine

/-! ### `CLR_ALL` and the read port -/

/-- Settles O1: `CLR_ALL` leaves the all-zero buffer whatever the buffer held. -/
theorem resetBufferIsWhatClearAllLeaves : Obligations.ResetBufferIsWhatClearAllLeaves := by
  unfold Obligations.ResetBufferIsWhatClearAllLeaves
  exact ⟨by decide, fun s => exec_buffer (i := .clrAll) s (by decide)⟩

/-- Byte `i` of `buf_rd` is `BUF[i]`. -/
theorem bufRd_byte (s : State) (i : Fin 6) : s.bufRd.extractLsb' (8 * i.val) 8 = s.buf.get i := by
  apply BitVec.eq_of_getLsbD_eq
  intro k hk
  rw [BitVec.getLsbD_extractLsb', getLsbD_bufRd]
  fin_cases i <;> simp (disch := omega) [SegBuf.get, hk, if_pos, if_neg]

/-- Settles O6: the read port shows the buffer of its own state, and an accepted operation's next state holds `bufAfter`. -/
theorem bufRdShowsEveryBufferByte : Obligations.BufRdShowsEveryBufferByte := by
  unfold Obligations.BufRdShowsEveryBufferByte
  refine ⟨bufRd_byte, fun s haccepts => ?_⟩
  obtain ⟨t, ht⟩ := exec_next (decode s.portNow.cmdWord) s.nextPort
  obtain ⟨-, -, -, -, hbuf⟩ := exec_frame ht
  refine ⟨t, (step_accept haccepts).trans ht, fun i => ?_⟩
  rw [bufRd_byte, hbuf, nextPort_cfg, nextPort_buf]

/-! ### Masked SegmentBytes -/

theorem ovl_and (v m : Byte) : ovl (v &&& m) = (ovl v && ovl m) := BitVec.getLsbD_and

theorem glyph_and (v m : Byte) : glyph (v &&& m) = glyph v &&& glyph m := BitVec.extractLsb'_and

theorem ovl_not (m : Byte) : ovl (~~~m) = !ovl m := by
  simp [ovl]

theorem glyph_not (m : Byte) : glyph (~~~m) = ~~~glyph m := BitVec.extractLsb'_not_of_lt (by decide)

/-- Two SegmentBytes agree under a mask when they agree in each field of which the mask holds a bit. -/
theorem and_eq_and_of_fields {v w m : Byte} (ho : ovl m = true → ovl v = ovl w)
    (hg : glyph m ≠ 0#7 → glyph v = glyph w) : v &&& m = w &&& m := by
  apply byte_ext
  · rw [ovl_and, ovl_and]
    cases hm : ovl m
    · simp
    · rw [ho hm]
  · rw [glyph_and, glyph_and]
    by_cases hm : glyph m = 0#7
    · simp [hm]
    · rw [hg hm]

/-! ### The access table (R23), field by field -/

/-- A row of the table that holds the overlay bits of some positions only. -/
theorem ovl_flagMask (c : Bool) : ovl (if c then 0x80#8 else 0x00#8) = c := by cases c <;> rfl

theorem glyph_flagMask (c : Bool) : glyph (if c then 0x80#8 else 0x00#8) = 0#7 := by cases c <;> rfl

/-- The row of `WR_TEXT`: every glyph, with the overlay bits of some positions. -/
theorem ovl_textMask (c : Bool) : ovl (if c then 0xFF#8 else 0x7F#8) = c := by cases c <;> rfl

theorem glyph_textMask (c : Bool) : glyph (if c then 0xFF#8 else 0x7F#8) = 0x7F#7 := by cases c <;> rfl

section
variable (cfg : Config) {i : Instr} {p : Fin 6}

/-- Outside its row an operation leaves the overlay bits. -/
theorem ovl_bufAfter_of_not_writeMask (b : SegBuf) (h : ovl (writeMask i p) = false) :
    ovl ((bufAfter cfg i b).get p) = ovl (b.get p) := by
  cases i
  case clrAll => simp [writeMask, ovl] at h
  case clrBatt | wrBatt =>
    have hp : isBattPos p = false := by simpa only [writeMask, ovl_flagMask] using h
    simp [bufAfter, hp, battFlag_of_dp]
  case clrDp | wrDp =>
    have hp : isDpPos p = false := by simpa only [writeMask, ovl_flagMask] using h
    simp [bufAfter, hp, dpFlag_of_batt]
  case wrText =>
    have hp : isDpPos p = false := by simpa only [writeMask, ovl_textMask] using h
    simp [bufAfter, hp]
  case clrGlyph => exact ovl_clearGlyphs b p
  all_goals rfl

/-- Outside its row an operation leaves the glyphs. -/
theorem glyph_bufAfter_of_not_writeMask (b : SegBuf) (h : glyph (writeMask i p) ≠ 0x7F#7) :
    glyph ((bufAfter cfg i b).get p) = glyph (b.get p) := by
  cases i
  case clrAll => exact absurd (show glyph 0xFF#8 = 0x7F#7 by decide) h
  case clrGlyph => exact absurd (show glyph 0x7F#8 = 0x7F#7 by decide) h
  case wrText => exact absurd (glyph_textMask (isDpPos p)) h
  case clrBatt => exact glyph_clearBatt b p
  case clrDp => exact glyph_clearDp b p
  case wrBatt percent => exact glyph_battBuf percent b p
  case wrDp pos => exact glyph_dpBuf pos b p
  all_goals rfl

/-- Inside its row the overlay bits an operation leaves do not depend on the old buffer. -/
theorem ovl_bufAfter_congr (b b' : SegBuf) (h : ovl (writeMask i p) = true) :
    ovl ((bufAfter cfg i b).get p) = ovl ((bufAfter cfg i b').get p) := by
  cases i
  case clrAll => rfl
  case clrBatt | wrBatt =>
    have hp : isBattPos p = true := by simpa only [writeMask, ovl_flagMask] using h
    simp [bufAfter, hp]
  case clrDp | wrDp =>
    have hp : isDpPos p = true := by simpa only [writeMask, ovl_flagMask] using h
    simp [bufAfter, hp]
  case wrText =>
    have hp : isDpPos p = true := by simpa only [writeMask, ovl_textMask] using h
    simp [bufAfter, hp]
  all_goals simp [writeMask, ovl] at h

/-- Inside its row the glyphs an operation leaves do not depend on the old buffer. -/
theorem glyph_bufAfter_congr (b b' : SegBuf) (h : glyph (writeMask i p) ≠ 0#7) :
    glyph ((bufAfter cfg i b).get p) = glyph ((bufAfter cfg i b').get p) := by
  cases i
  case clrAll => rfl
  case clrGlyph | wrText => simp [bufAfter]
  case clrBatt | wrBatt => exact absurd (glyph_flagMask (isBattPos p)) h
  case clrDp | wrDp => exact absurd (glyph_flagMask (isDpPos p)) h
  all_goals exact absurd rfl h

end

/-- No operation writes a buffer bit outside its row of the table. -/
theorem bufAfter_outside_writeMask (cfg : Config) (i : Instr) (b : SegBuf) (p : Fin 6) :
    (bufAfter cfg i b).get p &&& ~~~(writeMask i p) = b.get p &&& ~~~(writeMask i p) := by
  apply and_eq_and_of_fields
  · rw [ovl_not, Bool.not_eq_true']
    exact ovl_bufAfter_of_not_writeMask cfg b
  · intro hg
    refine glyph_bufAfter_of_not_writeMask cfg b fun hfull => hg ?_
    rw [glyph_not, hfull]
    rfl

/-- The bits an operation writes do not depend on the old buffer. -/
theorem bufAfter_inside_writeMask (cfg : Config) (i : Instr) (b b' : SegBuf) (p : Fin 6) :
    (bufAfter cfg i b).get p &&& writeMask i p = (bufAfter cfg i b').get p &&& writeMask i p :=
  and_eq_and_of_fields (ovl_bufAfter_congr cfg b b') (glyph_bufAfter_congr cfg b b')

/-- Settles O24: the buffer an operation leaves is `bufAfter`, which keeps the bits outside the operation's row and takes those
inside it from the operands and the parameters. -/
theorem writesStayInsideTheAccessTable : Obligations.WritesStayInsideTheAccessTable := by
  unfold Obligations.WritesStayInsideTheAccessTable
  refine fun i => ⟨fun s => ?_, fun s s' hcfg => ?_⟩
  · obtain ⟨t, ht⟩ := exec_next i s
    obtain ⟨-, -, -, -, hbuf⟩ := exec_frame ht
    exact ⟨t, ht, fun p => hbuf ▸ bufAfter_outside_writeMask s.cfg i s.buf p⟩
  · obtain ⟨t, ht⟩ := exec_next i s
    obtain ⟨t', ht'⟩ := exec_next i s'
    obtain ⟨-, -, -, -, hbuf⟩ := exec_frame ht
    obtain ⟨-, -, -, -, hbuf'⟩ := exec_frame ht'
    refine ⟨t, t', ht, ht', fun p => ?_⟩
    rw [hbuf, hbuf', ← hcfg]
    exact bufAfter_inside_writeMask s.cfg i s.buf s'.buf p

end Sys2Proof.Machine

/-!
The order of the bits on the wire (spec/20_memory.md R41 to R45): the wire bits of a packet, of two fields side by side and of its
byte array.
-/
namespace Sys2Proof.Machine

/-- The wire bits of a packet, the most significant bit first (spec/43_transmitter.md R130). -/
def wireBits {n : Nat} (P : BitVec n) : List Bool := (List.range n).map fun i => P.getLsbD (n - 1 - i)

/-! ### What a transaction puts on `DATA` -/

theorem dataLevels_append (es fs : List BusEvent) : dataLevels (es ++ fs) = dataLevels es ++ dataLevels fs :=
  List.filterMap_append

theorem dataLevels_bitEvents (bit : Bool) : dataLevels (bitEvents bit) = [bit] := rfl

/-- A list of bits puts on `DATA` just those bits, each once. -/
theorem dataLevels_flatMap_bitEvents (bits : Nat → Bool) (is : List Nat) :
    dataLevels (is.flatMap fun i => bitEvents (bits i)) = is.map bits := by
  induction is with
  | nil => rfl
  | cons i is ih => rw [List.flatMap_cons, dataLevels_append, dataLevels_bitEvents, ih, List.map_cons, List.singleton_append]

/-- The chip-select events put nothing on `DATA`. -/
theorem dataLevels_transactionEvents {n : Nat} (P : BitVec n) : dataLevels (transactionEvents P) = wireBits P := by
  have hcsHi : dataLevels [.emit .csN true] = [] := rfl
  have hcsLo (es : List BusEvent) : dataLevels (.emit .csN false :: es) = dataLevels es := rfl
  rw [transactionEvents, dataLevels_append, hcsHi, List.append_nil, hcsLo,
    dataLevels_flatMap_bitEvents fun i => P.getLsbD (n - 1 - i), wireBits]

/-! ### Fields and bytes -/

/-- A field written on the left goes out first. -/
theorem wireBits_append {m n : Nat} (P : BitVec m) (Q : BitVec n) : wireBits (P ++ Q) = wireBits P ++ wireBits Q := by
  unfold wireBits
  rw [List.range_add, List.map_append, List.map_map]
  congr 1 <;> refine List.map_congr_left fun i hi => ?_ <;> rw [List.mem_range] at hi
  · rw [BitVec.getLsbD_append, if_neg (by omega), show m + n - 1 - i - n = m - 1 - i by omega]
  · rw [Function.comp_apply, BitVec.getLsbD_append, if_pos (by omega), show m + n - 1 - (m + i) = n - 1 - i by omega]

theorem wireBits_byte (B : Byte) : wireBits B = byteBits B := rfl

/-- The first `k * m` places, taken in `m` groups of `k`. -/
theorem flatMap_range_groups {α : Type} (f : Nat → α) (k m : Nat) :
    ((List.range m).flatMap fun i => (List.range k).map fun j => f (k * i + j)) = (List.range (k * m)).map f := by
  induction m with
  | zero => rfl
  | succ m ih =>
    rw [List.range_succ, List.flatMap_append, ih, List.flatMap_singleton, Nat.mul_succ, List.range_add, List.map_append,
      List.map_map]
    rfl

/-- Bit `7 - j` of byte `k` of the byte array is wire bit `8k + j` of the packet. -/
theorem byteBits_packetByte {m k : Nat} (P : BitVec (8 * m)) (hk : k < m) :
    byteBits (P.extractLsb' (8 * (m - 1 - k)) 8) = (List.range 8).map fun j => P.getLsbD (8 * m - 1 - (8 * k + j)) := by
  refine List.map_congr_left fun j hj => ?_
  rw [List.mem_range] at hj
  rw [BitVec.getLsbD_extractLsb', decide_eq_true (by omega), Bool.true_and,
    show 8 * (m - 1 - k) + (7 - j) = 8 * m - 1 - (8 * k + j) by omega]

/-- The byte array holds the wire bits in their order (spec/20_memory.md R42). -/
theorem flatMap_byteBits_packetBytes (m : Nat) (P : BitVec (8 * m)) :
    (packetBytes m P).flatMap byteBits = wireBits P := by
  calc (packetBytes m P).flatMap byteBits
      = (List.range m).flatMap fun k => byteBits (P.extractLsb' (8 * (m - 1 - k)) 8) := List.flatMap_map ..
    _ = (List.range m).flatMap fun k => (List.range 8).map fun j => P.getLsbD (8 * m - 1 - (8 * k + j)) :=
        List.flatMap_congr fun _ hk => byteBits_packetByte P (List.mem_range.1 hk)
    _ = wireBits P := flatMap_range_groups (fun i => P.getLsbD (8 * m - 1 - i)) 8 m

/-- Settles O34: both sides are the wire bits of the packet. -/
theorem wireBitsAreTheByteArrayMsbFirst : Obligations.WireBitsAreTheByteArrayMsbFirst := by
  unfold Obligations.WireBitsAreTheByteArrayMsbFirst
  constructor
  · intro cfg code
    rw [dataLevels_transactionEvents]
    exact (flatMap_byteBits_packetBytes 2 (pktCmd cfg code)).symm
  · intro cfg b
    rw [dataLevels_transactionEvents]
    exact (flatMap_byteBits_packetBytes 8 (pktData cfg b)).symm

/-- Settles O35: the wire bits of the data packet are those of its fields, from the left. -/
theorem bufferGoesOutRightmostFirstOverlayFirst : Obligations.BufferGoesOutRightmostFirstOverlayFirst := by
  unfold Obligations.BufferGoesOutRightmostFirstOverlayFirst
  intro cfg b
  have htag : wireBits cfg.dataTag = [cfg.dataTag.getLsbD 2, cfg.dataTag.getLsbD 1, cfg.dataTag.getLsbD 0] := rfl
  have haddr : wireBits startAddr = List.replicate 6 false := by decide
  have hpad : wireBits 0b0000000#7 = List.replicate 7 false := by decide
  rw [dataLevels_transactionEvents, pktData, word0, word1, word2]
  simp only [wireBits_append, wireBits_byte, htag, haddr, hpad, List.append_assoc]

end Sys2Proof.Machine

/-!
The transmitter as the events it still has to make, and host and block together (spec/20_memory.md R50, spec/43_transmitter.md R130,
spec/70_reset_and_hazards.md R180).
-/
namespace Sys2Proof.Machine

/-! ### The events a transaction still has to make -/

/-- The events of the packet under way from wire bit `i` on, the release of the chip-select among them. -/
def eventsFromBit (s : State) (i : Nat) : List BusEvent :=
  ((List.range' i (s.nbits - i)).flatMap fun j => bitEvents (s.shreg.getLsbD (63 - j))) ++ [.emit .csN true]

/-- The events that the transmitter has still to make, oldest first: none in the idle block. -/
def pendingEvents (s : State) : List BusEvent :=
  match s.txPhase with
  | .idle => []
  | .csLo => .emit .csN false :: (bitEvents (wireBit s) ++ eventsFromBit s (s.bidx + 1))
  | .bitD => bitEvents (wireBit s) ++ eventsFromBit s (s.bidx + 1)
  | .bitCl => .emit .clk false :: .emit .clk true :: eventsFromBit s (s.bidx + 1)
  | .bitCh => .emit .clk true :: eventsFromBit s (s.bidx + 1)
  | .csHi => [.emit .csN true]

section
variable {s : State}

theorem eventsFromBit_of_lt {i : Nat} (h : i < s.nbits) :
    eventsFromBit s i = bitEvents (s.shreg.getLsbD (63 - i)) ++ eventsFromBit s (i + 1) := by
  rw [eventsFromBit, show s.nbits - i = s.nbits - (i + 1) + 1 by omega, List.range'_succ, List.flatMap_cons,
    List.append_assoc, eventsFromBit]

theorem eventsFromBit_of_ge {i : Nat} (h : s.nbits ≤ i) : eventsFromBit s i = [.emit .csN true] := by
  rw [eventsFromBit, Nat.sub_eq_zero_of_le h]
  rfl

theorem pendingEvents_idle (hp : s.txPhase = .idle) : pendingEvents s = [] := by
  rw [pendingEvents, hp]

/-- A cycle of the busy transmitter makes the first of its pending events and leaves the others. -/
theorem transmit_pendingEvents (h : s.txPhase ≠ .idle) :
    ∃ e, pendingEvents s = e :: pendingEvents (transmit s) ∧ (transmit s).obs = s.obs ++ [e] := by
  unfold transmit
  cases hp : s.txPhase
  case idle => exact absurd hp h
  case csLo => exact ⟨.emit .csN false, by rw [pendingEvents, hp]; rfl, rfl⟩
  case bitD => exact ⟨.emit .data (wireBit s), by rw [pendingEvents, hp]; rfl, rfl⟩
  case bitCl => exact ⟨.emit .clk false, by rw [pendingEvents, hp]; rfl, rfl⟩
  case bitCh =>
    refine ⟨.emit .clk true, ?_⟩
    rw [pendingEvents, hp]
    dsimp only
    unfold phaseBitCh
    split
    case isTrue hmore => exact ⟨by rw [eventsFromBit_of_lt hmore]; rfl, rfl⟩
    case isFalse hdone => exact ⟨by rw [eventsFromBit_of_ge (by omega)]; rfl, rfl⟩
  case csHi => exact ⟨.emit .csN true, by rw [pendingEvents, hp]; rfl, rfl⟩

/-- Nothing is pending in the idle block only. -/
theorem idle_of_pendingEvents_nil (hnil : pendingEvents s = []) : s.txPhase = .idle := by
  by_contra hp
  obtain ⟨e, hpending, -⟩ := transmit_pendingEvents hp
  simp [hnil] at hpending

/-! ### An operation's events and cycles -/

theorem transactionEvents_length {n : Nat} (P : BitVec n) : (transactionEvents P).length = 2 + 3 * n := by
  rw [transactionEvents, List.length_append, List.length_cons, flatMap_bitEvents_length fun i => P.getLsbD (n - 1 - i),
    List.length_singleton]
  omega

/-- An operation takes its accept cycle and one cycle for each of its events (spec/70_reset_and_hazards.md R180). -/
theorem opCycles_eq_length (cfg : Config) (i : Instr) (b : SegBuf) :
    opCycles cfg i = (opEvents cfg i b).length + 1 := by
  cases i
  case sendCmd | sendBuf =>
    rw [opCycles, opEvents]
    split <;> simp [transactionEvents_length]
  all_goals rfl

/-- Loading the packet `P`, left-aligned as `Q`, into the idle block leaves the events of its whole transaction to make; without a
chip-select, none (spec/43_transmitter.md R130, R139). -/
theorem pendingEvents_loadPacket {n : Nat} (P : BitVec n) (Q : BitVec 64) (hp : s.txPhase = .idle) (hn : 0 < n)
    (hQ : ∀ i < n, Q.getLsbD (63 - i) = P.getLsbD (n - 1 - i)) :
    pendingEvents (loadPacket Q n s) = if s.cfg.csPresent then transactionEvents P else [] := by
  cases hcs : s.cfg.csPresent
  case false =>
    rw [loadPacket_absent Q n hcs]
    exact pendingEvents_idle hp
  case true =>
    have hbits : ((List.range n).flatMap fun i => bitEvents (Q.getLsbD (63 - i))) =
        (List.range n).flatMap fun i => bitEvents (P.getLsbD (n - 1 - i)) :=
      List.flatMap_congr fun i hi => by rw [hQ i (List.mem_range.1 hi)]
    rw [loadPacket_present Q n hcs, if_pos rfl, transactionEvents, ← hbits, List.range_eq_range']
    obtain ⟨m, rfl⟩ := Nat.exists_eq_succ_of_ne_zero hn.ne'
    rw [List.range'_succ, List.flatMap_cons]
    rfl

/-- After its accept cycle an operation has all its events still to make (spec/43_transmitter.md R130, R139). -/
theorem pendingEvents_of_exec {i : Instr} {t : State} (hp : s.txPhase = .idle) (ht : exec i s = .next t) :
    pendingEvents t = opEvents s.cfg i s.buf := by
  cases i
  case sendCmd code =>
    cases ht
    refine pendingEvents_loadPacket (pktCmd s.cfg code) _ hp (by decide) fun i hi => ?_
    rw [getLsbD_leftAligned, if_neg (by omega), show 63 - i - 48 = 16 - 1 - i by omega]
  case sendBuf =>
    cases ht
    exact pendingEvents_loadPacket (pktData s.cfg s.buf) _ hp (by decide) fun _ _ => rfl
  all_goals
    cases ht
    exact pendingEvents_idle hp

end

/-! ### Host and block together -/

/-- This host never resets the block (log 16). -/
theorem hostPort_rst (ws : List CmdWord) : (hostPort ws).rst = false := by cases ws <;> rfl

section
variable {s : State}

theorem hostRun_succ {t : State} (k : Nat) (ws : List CmdWord) (h : step (s.withPort (hostPort ws)) = .next t) :
    hostRun (k + 1) ws s = hostRun k (hostRest ws s) t := by
  rw [hostRun, h]

/-- In a busy cycle the host keeps its list, and the block transmits whatever is presented. -/
theorem hostRun_busy (hp : s.txPhase ≠ .idle) (k : Nat) (ws : List CmdWord) :
    hostRun (k + 1) ws s = hostRun k ws (transmit s.nextPort) := by
  have hrest : hostRest ws s = ws := by rw [hostRest, (not_ready_iff s).2 hp]; rfl
  rw [hostRun_succ k ws (step_busy (hostPort_rst ws) hp), hrest, withPort_nextPort]

/-- In a ready cycle the first word of the list is accepted and leaves it. -/
theorem hostRun_accept {t : State} (hready : s.ready = true) (w : CmdWord) (ht : exec (decode w) s.nextPort = .next t)
    (k : Nat) (ws : List CmdWord) : hostRun (k + 1) (w :: ws) s = hostRun k ws t := by
  have haccepts : (s.withPort (hostPort (w :: ws))).accepts = true := by simp [State.accepts, hostPort, hready]
  have hrest : hostRest (w :: ws) s = ws := by rw [hostRest, hready]; rfl
  rw [hostRun_succ k (w :: ws) ((step_accept haccepts).trans ht), hrest]

end

/-- The transaction under way runs to its end, one cycle for each event, and the host's list waits. -/
theorem hostRun_pendingEvents (s : State) :
    ∃ t, (∀ k ws, hostRun (k + (pendingEvents s).length) ws s = hostRun k ws t) ∧ t.ready = true ∧
      t.cfg = s.cfg ∧ t.buf = s.buf ∧ t.obs = s.obs ++ pendingEvents s := by
  induction hes : pendingEvents s generalizing s with
  | nil =>
    have hready : s.ready = true := (ready_iff s).2 (idle_of_pendingEvents_nil hes)
    exact ⟨s, fun k ws => rfl, hready, rfl, rfl, (List.append_nil _).symm⟩
  | cons e es ih =>
    have hp : s.txPhase ≠ .idle := fun hidle => by simp [pendingEvents_idle hidle] at hes
    obtain ⟨e', hpending, hobs⟩ := transmit_pendingEvents (s := s.nextPort) hp
    obtain ⟨rfl, hes'⟩ : e = e' ∧ es = pendingEvents (transmit s.nextPort) := List.cons.inj (hes.symm.trans hpending)
    obtain ⟨-, -, -, -, hcfg, hbuf, -⟩ := transmit_busy (s := s.nextPort) hp
    obtain ⟨t, hrun, hready, hcfg', hbuf', hobs'⟩ := ih (transmit s.nextPort) hes'.symm
    refine ⟨t, fun k ws => ?_, hready, hcfg'.trans hcfg, hbuf'.trans hbuf, ?_⟩
    · rw [List.length_cons, ← Nat.add_assoc, hostRun_busy hp, hrun]
    · rw [hobs', hobs, nextPort_obs, List.append_assoc, List.singleton_append]

/-- From the ready block the first word of the list is run to completion in `opCycles` cycles (spec/20_memory.md R50). -/
theorem hostRun_word {s : State} (hready : s.ready = true) (w : CmdWord) :
    ∃ t, (∀ k ws, hostRun (opCycles s.cfg (decode w) + k) (w :: ws) s = hostRun k ws t) ∧ t.ready = true ∧
      t.cfg = s.cfg ∧ t.buf = bufAfter s.cfg (decode w) s.buf ∧ t.obs = s.obs ++ opEvents s.cfg (decode w) s.buf := by
  obtain ⟨u, hu⟩ := exec_next (decode w) s.nextPort
  obtain ⟨hcfg, -, hobs, -, hbuf⟩ := exec_frame hu
  have hpending : pendingEvents u = opEvents s.cfg (decode w) s.buf :=
    pendingEvents_of_exec (s := s.nextPort) ((ready_iff s).1 hready) hu
  obtain ⟨t, hrun, hready', hcfg', hbuf', hobs'⟩ := hostRun_pendingEvents u
  refine ⟨t, fun k ws => ?_, hready', hcfg'.trans hcfg, hbuf'.trans hbuf, ?_⟩
  · rw [opCycles_eq_length s.cfg (decode w) s.buf, ← hpending, Nat.add_comm, ← Nat.add_assoc,
      hostRun_accept hready w hu, hrun]
  · rw [hobs', hobs, hpending, nextPort_obs]

/-- Settles O48, by induction on the words: each finds the block ready and is run to completion before the next is taken. -/
theorem hostRunRefinesRunToCompletion : Obligations.HostRunRefinesRunToCompletion := by
  unfold Obligations.HostRunRefinesRunToCompletion
  intro ws
  induction ws with
  | nil => exact fun s hready => ⟨s, rfl, hready, rfl, rfl, (List.append_nil _).symm⟩
  | cons w ws ih =>
    intro s hready
    obtain ⟨u, hword, huready, hucfg, hubuf, huobs⟩ := hostRun_word hready w
    obtain ⟨t, hrest, htready, htcfg, htbuf, htobs⟩ := ih u huready
    rw [hucfg] at hrest htcfg htbuf htobs
    rw [hubuf] at htbuf htobs
    refine ⟨t, ?_, htready, htcfg, htbuf, ?_⟩
    · rw [wordsCycles, hword, hrest]
    · rw [htobs, huobs, List.append_assoc, wordsEvents]

end Sys2Proof.Machine

/-!
The decoder against the encoder and the opcode table (spec/30_encoding.md R61, R62, R65).
-/
namespace Sys2Proof

/-! ### A word masked format by format (R62) -/

/-- A field's bits under a mask of that field. -/
theorem getLsbD_and_field (w : CmdWord) {n a k : Nat} (m : BitVec n) (hle : a ≤ k) (hlt : k < a + n) :
    (w.getLsbD k && m.getLsbD (k - a)) = (w.extractLsb' a n &&& m).getLsbD (k - a) := by
  have hk : k - a < n := by omega
  rw [BitVec.getLsbD_and, BitVec.getLsbD_extractLsb', Nat.add_sub_cancel' hle]
  simp [hk]

theorem and_formNone (w : CmdWord) (op : BitVec 4) : w &&& formNone op = formNone (opField w &&& op) := by
  apply BitVec.eq_of_getLsbD_eq
  intro k hk
  rw [BitVec.getLsbD_and, getLsbD_formNone, getLsbD_formNone]
  split
  · exact Bool.and_false _
  · exact getLsbD_and_field w op (by omega) (by omega)

theorem and_formByte (w : CmdWord) (op : BitVec 4) (a : Byte) :
    w &&& formByte op a = formByte (opField w &&& op) (charField w 0 &&& a) := by
  apply BitVec.eq_of_getLsbD_eq
  intro k hk
  rw [BitVec.getLsbD_and, getLsbD_formByte, getLsbD_formByte]
  split
  · exact getLsbD_and_field w a (Nat.zero_le k) (by omega)
  split
  · exact Bool.and_false _
  · exact getLsbD_and_field w op (by omega) (by omega)

theorem and_formText (w : CmdWord) (op : BitVec 4) (len : BitVec 3) (c0 c1 c2 c3 c4 c5 : Byte) :
    w &&& formText op len c0 c1 c2 c3 c4 c5 =
      formText (opField w &&& op) (lenField w &&& len) (charField w 0 &&& c0) (charField w 1 &&& c1) (charField w 2 &&& c2)
        (charField w 3 &&& c3) (charField w 4 &&& c4) (charField w 5 &&& c5) := by
  apply BitVec.eq_of_getLsbD_eq
  intro k hk
  rw [BitVec.getLsbD_and, getLsbD_formText, getLsbD_formText]
  simp only [apply_ite (w.getLsbD k && ·), Bool.and_false]
  refine ite_congr rfl (fun _ => getLsbD_and_field w c0 (Nat.zero_le k) (by omega)) fun _ => ?_
  refine ite_congr rfl (fun _ => getLsbD_and_field w c1 (by omega) (by omega)) fun _ => ?_
  refine ite_congr rfl (fun _ => getLsbD_and_field w c2 (by omega) (by omega)) fun _ => ?_
  refine ite_congr rfl (fun _ => getLsbD_and_field w c3 (by omega) (by omega)) fun _ => ?_
  refine ite_congr rfl (fun _ => getLsbD_and_field w c4 (by omega) (by omega)) fun _ => ?_
  refine ite_congr rfl (fun _ => getLsbD_and_field w c5 (by omega) (by omega)) fun _ => ?_
  refine ite_congr rfl (fun _ => rfl) fun _ => ?_
  refine ite_congr rfl (fun _ => getLsbD_and_field w len (by omega) (by omega)) fun _ => ?_
  refine ite_congr rfl (fun _ => rfl) fun _ => ?_
  exact getLsbD_and_field w op (by omega) (by omega)

/-! ### Decoding against encoding (R65) -/

/-- The encoding of the operation a word stands for is the word with its ignored bits cleared. -/
theorem encode_decode (w : CmdWord) : encode (decode w) = w &&& usedBits w := by
  have none : 0xF000000000000000#64 = formNone (.allOnes 4) := by decide
  have byte : 0xF0000000000000FF#64 = formByte (.allOnes 4) (.allOnes 8) := by decide
  have text : 0xF700FFFFFFFFFFFF#64 = formText (.allOnes 4) (.allOnes 3) (.allOnes 8) (.allOnes 8) (.allOnes 8) (.allOnes 8)
      (.allOnes 8) (.allOnes 8) := by decide
  rw [usedBits, none, byte, text, apply_ite (w &&& ·), apply_ite (w &&& ·), and_formNone, and_formByte, and_formText]
  simp only [BitVec.and_allOnes]
  rcases opField_cases w with h | h | h | h | h | h | h | h | h | h | h | h
  · rw [decode_nop h, h]; rfl
  · rw [decode_clrBatt h, h]; rfl
  · rw [decode_clrDp h, h]; rfl
  · rw [decode_clrGlyph h, h]; rfl
  · rw [decode_clrAll h, h]; rfl
  · rw [decode_wrText h, h]; rfl
  · rw [decode_wrBatt h, h]; rfl
  · rw [decode_wrDp h, h]; rfl
  · rw [decode_sendCmd h, h]; rfl
  · rw [decode_sendBuf h, h]; rfl
  · rw [decode_reservedAB h]; rcases h with h | h <;> rw [h] <;> rfl
  · have notText : opField w ≠ 0x5#4 := fun e => absurd (e ▸ h) (by decide)
    have notByte : ¬(opField w = 0x6#4 ∨ opField w = 0x7#4 ∨ opField w = 0x8#4) := by
      rintro (e | e | e) <;> exact absurd (e ▸ h) (by decide)
    rw [decode_reservedCF h, if_neg notText, if_neg notByte]; rfl

theorem wellFormed_decode (w : CmdWord) : (decode w).wellFormed = true := by
  rcases opField_cases w with h | h | h | h | h | h | h | h | h | h | h | h
  · rw [decode_nop h]; rfl
  · rw [decode_clrBatt h]; rfl
  · rw [decode_clrDp h]; rfl
  · rw [decode_clrGlyph h]; rfl
  · rw [decode_clrAll h]; rfl
  · rw [decode_wrText h]; rfl
  · rw [decode_wrBatt h]; rfl
  · rw [decode_wrDp h]; rfl
  · rw [decode_sendCmd h]; rfl
  · rw [decode_sendBuf h]; rfl
  · rw [decode_reservedAB h]; exact decide_eq_true h
  · rw [decode_reservedCF h]; exact decide_eq_true h

/-- A well-formed operation comes back from its encoding. -/
theorem decode_encode {i : Instr} (h : i.wellFormed = true) : decode (encode i) = i := by
  cases i with
  | nop => exact decode_nop (opField_formNone _)
  | clrBatt => exact decode_clrBatt (opField_formNone _)
  | clrDp => exact decode_clrDp (opField_formNone _)
  | clrGlyph => exact decode_clrGlyph (opField_formNone _)
  | clrAll => exact decode_clrAll (opField_formNone _)
  | wrText len c0 c1 c2 c3 c4 c5 =>
    obtain ⟨h0, h1, h2, h3, h4, h5⟩ := charField_formText 0x5#4 len c0 c1 c2 c3 c4 c5
    rw [encode, decode_wrText (opField_formText ..), lenField_formText, h0, h1, h2, h3, h4, h5]
  | wrBatt p => rw [encode, decode_wrBatt (opField_formByte ..), charField_formByte]
  | wrDp p => rw [encode, decode_wrDp (opField_formByte ..), charField_formByte]
  | sendCmd c => rw [encode, decode_sendCmd (opField_formByte ..), charField_formByte]
  | sendBuf => exact decode_sendBuf (opField_formNone _)
  | reservedAB op => rw [encode, decode_reservedAB (by simpa [Instr.wellFormed] using h), opField_formNone]
  | reservedCF op => rw [encode, decode_reservedCF (by simpa [Instr.wellFormed] using h), opField_formNone]

/-- Settles O11: a decoded operation is read back from its encoding, which is the word under `usedBits`. -/
theorem ignoredBitsHaveNoEffect : Obligations.IgnoredBitsHaveNoEffect := by
  unfold Obligations.IgnoredBitsHaveNoEffect
  refine ⟨fun w => ⟨wellFormed_decode w, encode_decode w⟩, fun v w hvw => ?_⟩
  rw [← encode_decode, ← encode_decode] at hvw
  rw [← decode_encode (wellFormed_decode v), hvw, decode_encode (wellFormed_decode w)]

/-! ### The rows of the opcode table (R61) -/

/-- A row reads the opcode field and nothing else. -/
def OpcodeRow.coversOp (r : OpcodeRow) (op : BitVec 4) : Bool := decide (op &&& opField r.mask = opField r.pattern)

theorem formNone_inj {a b : BitVec 4} : formNone a = formNone b ↔ a = b :=
  ⟨fun h => by rw [← opField_formNone a, h, opField_formNone], congrArg formNone⟩

/-- The masks and patterns of the table lie within the opcode field. -/
theorem opcodeRows_formNone :
    ∀ r ∈ opcodeRows, r.mask = formNone (opField r.mask) ∧ r.pattern = formNone (opField r.pattern) := by
  decide

theorem covers_eq_coversOp {r : OpcodeRow} (hr : r ∈ opcodeRows) (w : CmdWord) : r.covers w = r.coversOp (opField w) := by
  obtain ⟨hmask, hpattern⟩ := opcodeRows_formNone r hr
  rw [OpcodeRow.covers, hmask, hpattern, and_formNone, OpcodeRow.coversOp, decide_eq_decide, formNone_inj]

/-- A well-formed operation's opcode belongs to its row alone. -/
theorem filter_coversOp_opcode {i : Instr} (h : i.wellFormed = true) :
    opcodeRows.filter (fun r => r.coversOp i.opcode) = [i.row] := by
  cases i with
  | nop => rfl
  | clrBatt => rfl
  | clrDp => rfl
  | clrGlyph => rfl
  | clrAll => rfl
  | wrText len c0 c1 c2 c3 c4 c5 =>
    change opcodeRows.filter (fun r => r.coversOp 0x5#4) = [(Instr.wrText 0 0 0 0 0 0 0).row]
    decide
  | wrBatt p =>
    change opcodeRows.filter (fun r => r.coversOp 0x6#4) = [(Instr.wrBatt 0).row]
    decide
  | wrDp p =>
    change opcodeRows.filter (fun r => r.coversOp 0x7#4) = [(Instr.wrDp 0).row]
    decide
  | sendCmd c =>
    change opcodeRows.filter (fun r => r.coversOp 0x8#4) = [(Instr.sendCmd 0).row]
    decide
  | sendBuf => rfl
  | reservedAB op => revert op; decide
  | reservedCF op => revert op; decide

/-- Settles O12: the rows that cover a word are those that cover the opcode of its operation. -/
theorem tableRowsPartitionTheWords : Obligations.TableRowsPartitionTheWords := by
  unfold Obligations.TableRowsPartitionTheWords
  intro w
  rw [← filter_coversOp_opcode (wellFormed_decode w), opcode_decode]
  exact List.filter_congr fun r hr => covers_eq_coversOp hr w

end Sys2Proof

/-!
The characters a `WR_TEXT` looks up (spec/30_encoding.md R63).
-/
namespace Sys2Proof.Machine

/-- The glyphs of a text depend on its effective length and on the characters below it. -/
theorem textGlyph_congr (cfg : Config) {len len' : BitVec 3} {chars chars' : Fin 6 → Byte} (hlen : effLen len = effLen len')
    (hchars : ∀ i : Fin 6, i.val < effLen len → chars i = chars' i) : textGlyph cfg len chars = textGlyph cfg len' chars' := by
  funext i
  unfold textGlyph
  rw [← hlen]
  split
  case isTrue h => rw [hchars i h]
  case isFalse => rfl

theorem textGlyph_of_effLen_le (cfg : Config) {len : BitVec 3} (chars : Fin 6 → Byte) {i : Fin 6} (h : effLen len ≤ i.val) :
    textGlyph cfg len chars i = blankGlyph := if_neg (Nat.not_lt.2 h)

theorem textBuf_congr {cfg : Config} {len len' : BitVec 3} {chars chars' : Fin 6 → Byte} (b : SegBuf)
    (h : textGlyph cfg len chars = textGlyph cfg len' chars') : textBuf cfg len chars b = textBuf cfg len' chars' b :=
  segBuf_ext_fields (fun i => by rw [ovl_textBuf, ovl_textBuf]) fun i => by rw [glyph_textBuf, glyph_textBuf, h]

theorem exec_wrText (len : BitVec 3) (c0 c1 c2 c3 c4 c5 : Byte) (s : State) :
    exec (.wrText len c0 c1 c2 c3 c4 c5) s =
      .next (s.withBuf (textBuf s.cfg len (charAt c0 c1 c2 c3 c4 c5) s.buf)) := rfl

/-- Settles O28: the two operations write the same glyphs, blank ones from the effective length on. -/
theorem charactersPastTheEffectiveLengthAreNotLookedUp : Obligations.CharactersPastTheEffectiveLengthAreNotLookedUp := by
  unfold Obligations.CharactersPastTheEffectiveLengthAreNotLookedUp
  intro s len len' c0 c1 c2 c3 c4 c5 d0 d1 d2 d3 d4 d5 hlen hchars
  refine ⟨?_, _, exec_wrText .., fun i hi => ?_⟩
  · rw [exec_wrText, exec_wrText, textBuf_congr s.buf (textGlyph_congr s.cfg hlen hchars)]
  · rw [withBuf_buf, glyph_textBuf]
    exact textGlyph_of_effLen_le s.cfg _ hi

end Sys2Proof.Machine

/-!
The assembler lines and the pseudo-operations (spec/30_encoding.md R67, R68).
-/
namespace Sys2Proof.Machine

/-! ### Operands -/

/-- The `WR_TEXT` of a text: its length and its codes, 0x00 past its end (R67). -/
def textInstr (text : List Char) : Instr :=
  .wrText (BitVec.ofNat 3 text.length)
    (BitVec.ofNat 8 ((text[0]?.map Char.toNat).getD 0)) (BitVec.ofNat 8 ((text[1]?.map Char.toNat).getD 0))
    (BitVec.ofNat 8 ((text[2]?.map Char.toNat).getD 0)) (BitVec.ofNat 8 ((text[3]?.map Char.toNat).getD 0))
    (BitVec.ofNat 8 ((text[4]?.map Char.toNat).getD 0)) (BitVec.ofNat 8 ((text[5]?.map Char.toNat).getD 0))

/-- Code `i` of a text, 0x00 past its end. -/
theorem getD_codes (text : List Char) (i : Nat) :
    (text.map fun c => BitVec.ofNat 8 c.toNat).getD i 0x00#8 = BitVec.ofNat 8 ((text[i]?.map Char.toNat).getD 0) := by
  rw [List.getD_eq_getElem?_getD, List.getElem?_map]
  cases text[i]? <;> rfl

theorem assembleText_eq {text : List Char} (hlen : text.length ≤ 6) (h : ∀ c ∈ text, 0x20 ≤ c.toNat ∧ c.toNat ≤ 0x7E) :
    assembleText text = some (textInstr text) := by
  simp only [assembleText, textCodes_of_range text h, List.length_map, if_pos hlen, getD_codes, textInstr]

theorem parseQuoted_quoted (text : List Char) : parseQuoted ('"' :: (text ++ ['"'])) = some text := by
  rw [parseQuoted, splitQuoted_append text [] (by simp)]

theorem parseFixed_quoted {text num : List Char} {i : Instr} {p : Byte} (hquote : ∀ c ∈ num, c ≠ '"')
    (htext : assembleText text = some i) (hnum : parseByte num = some p) :
    parseFixed ('"' :: (text ++ '"' :: ',' :: ' ' :: num)) = some (.showFixed i p) := by
  have hafter : ∀ c ∈ ',' :: ' ' :: num, c ≠ '"' := by simpa using hquote
  simp only [parseFixed, splitQuoted_append text _ hafter, htext, hnum]

/-! ### Lines -/

/-- A line is split at its first space. -/
theorem parseLine_append_space {mn : List Char} (operand : List Char) (h : ' ' ∉ mn) :
    parseLine (mn ++ ' ' :: operand) = parseWith mn operand := by
  have hmn : ∀ c ∈ mn, decide (c ≠ ' ') = true := fun c hc => decide_eq_true fun e => h (e ▸ hc)
  unfold parseLine
  rw [List.takeWhile_append_of_pos hmn, List.dropWhile_append_of_pos hmn]
  simp

theorem assembleLine_operand {mn operand : List Char} {l : AsmLine} (h : ' ' ∉ mn) (hl : parseWith mn operand = some l) :
    assembleLine (mn ++ ' ' :: operand) = some (l.expand.map encode) := by
  rw [assembleLine, parseLine_append_space operand h, hl, Option.map_some]

section
variable {operand : List Char} {p : Byte}

theorem parseWith_wrBatt (h : parseByte operand = some p) :
    parseWith ['W', 'R', '_', 'B', 'A', 'T', 'T'] operand = some (.op (.wrBatt p)) := by simp [parseWith, h]

theorem parseWith_wrDp (h : parseByte operand = some p) :
    parseWith ['W', 'R', '_', 'D', 'P'] operand = some (.op (.wrDp p)) := by simp [parseWith, h]

theorem parseWith_sendCmd (h : parseByte operand = some p) :
    parseWith ['S', 'E', 'N', 'D', '_', 'C', 'M', 'D'] operand = some (.op (.sendCmd p)) := by simp [parseWith, h]

end

section
variable {text : List Char} {i : Instr}

theorem parseWith_wrText (h : assembleText text = some i) :
    parseWith ['W', 'R', '_', 'T', 'E', 'X', 'T'] ('"' :: (text ++ ['"'])) = some (.op i) := by
  simp [parseWith, parseQuoted_quoted, h]

theorem parseWith_showText (h : assembleText text = some i) :
    parseWith ['S', 'H', 'O', 'W', '_', 'T', 'E', 'X', 'T'] ('"' :: (text ++ ['"'])) = some (.showText i) := by
  simp [parseWith, parseQuoted_quoted, h]

end

theorem parseWith_showFixed (operand : List Char) :
    parseWith ['S', 'H', 'O', 'W', '_', 'F', 'I', 'X', 'E', 'D'] operand = parseFixed operand := by simp [parseWith]

/-- Settles O49, reader by reader: the line is split at its first space, a text at its last quote, and every text of a number is read
as that number. -/
theorem assemblerLinesStandForTheirOperations : Obligations.AssemblerLinesStandForTheirOperations := by
  unfold Obligations.AssemblerLinesStandForTheirOperations
  refine ⟨by decide, fun num n hnum hn => ?_, fun text hlen hrange => ⟨textInstr text, rfl, ?_, ?_, fun num n hnum hn => ?_⟩⟩
  · have hbyte := parseByte_numberText hnum hn
    exact ⟨assembleLine_operand (by decide) (parseWith_wrBatt hbyte), assembleLine_operand (by decide) (parseWith_wrDp hbyte),
      assembleLine_operand (by decide) (parseWith_sendCmd hbyte)⟩
  · exact assembleLine_operand (by decide) (parseWith_wrText (assembleText_eq hlen hrange))
  · exact assembleLine_operand (by decide) (parseWith_showText (assembleText_eq hlen hrange))
  · have hfixed := parseFixed_quoted (numberText_ne_quote hnum) (assembleText_eq hlen hrange) (parseByte_numberText hnum hn)
    rw [List.append_assoc, List.append_assoc]
    exact assembleLine_operand (by decide) ((parseWith_showFixed _).trans hfixed)

end Sys2Proof.Machine

/-!
The character encoder ROM class by class (spec/40_rom.md R80), and its worked examples (R88).
-/
namespace Sys2Proof.Machine

/-! ### What `rom` gives in each class of codes -/

/-- The code `k` places after the first code of a class, as a number. -/
theorem toNat_classCode {base k : Nat} (h : base + k < 256) : (BitVec.ofNat 8 (base + k)).toNat = base + k :=
  Nat.mod_eq_of_lt h

section
variable (cfg : Config)

theorem rom_space : rom cfg 0x20#8 = blankGlyph := rfl

theorem rom_minus : rom cfg 0x2D#8 = cfg.minusPat := rfl

theorem rom_digit (d : Fin 10) : rom cfg (BitVec.ofNat 8 (0x30 + d.val)) = cfg.digitPat[d] := by
  have hcode := toNat_classCode (base := 0x30) (k := d.val) (by omega)
  have hspace : BitVec.ofNat 8 (0x30 + d.val) ≠ 0x20#8 := by bv_omega
  rw [rom, if_neg hspace, dif_pos (by omega)]
  simp [hcode]

theorem rom_upper (l : Fin 26) : rom cfg (BitVec.ofNat 8 (0x41 + l.val)) = cfg.letterPat[l] := by
  have hcode := toNat_classCode (base := 0x41) (k := l.val) (by omega)
  have hspace : BitVec.ofNat 8 (0x41 + l.val) ≠ 0x20#8 := by bv_omega
  rw [rom, if_neg hspace, dif_neg (by omega), dif_pos (by omega)]
  simp [hcode]

variable {cfg}

theorem rom_lower (hmode : cfg.lowercaseMode = .dupUpper) (l : Fin 26) :
    rom cfg (BitVec.ofNat 8 (0x61 + l.val)) = cfg.letterPat[l] := by
  have hcode := toNat_classCode (base := 0x61) (k := l.val) (by omega)
  have hspace : BitVec.ofNat 8 (0x61 + l.val) ≠ 0x20#8 := by bv_omega
  have hminus : BitVec.ofNat 8 (0x61 + l.val) ≠ 0x2D#8 := by bv_omega
  rw [rom, if_neg hspace, dif_neg (by omega), dif_neg (by omega), if_neg hminus, dif_pos ⟨by omega, hmode⟩]
  simp [hcode]

/-- A code that is in none of the classes with a pattern is unsupported (D6), the space among them. -/
theorem rom_eq_blank {c : Byte} (hdigit : ¬(0x30 ≤ c.toNat ∧ c.toNat ≤ 0x39)) (hupper : ¬(0x41 ≤ c.toNat ∧ c.toNat ≤ 0x5A))
    (hminus : c ≠ 0x2D#8) (hlower : ¬(0x61 ≤ c.toNat ∧ c.toNat ≤ 0x7A ∧ cfg.lowercaseMode = .dupUpper)) :
    rom cfg c = blankGlyph := by
  rw [rom, dif_neg hdigit, dif_neg hupper, if_neg hminus, dif_neg (and_assoc.not.2 hlower), ite_self]

end

/-! ### The obligations -/

/-- Settles O13: one lemma for each class of codes. -/
theorem romMapsEachCodeAsTheDefinitionSays : Obligations.RomMapsEachCodeAsTheDefinitionSays := fun cfg =>
  ⟨rom_space cfg, rom_digit cfg, rom_upper cfg, rom_minus cfg, fun l hmode => rom_lower hmode l, fun _ => rom_eq_blank⟩

/-- Settles O14: each code by its class, 'a' as the first of the lowercase codes. -/
theorem romWorkedExamplesUnderTheDefaults : Obligations.RomWorkedExamplesUnderTheDefaults := by
  unfold Obligations.RomWorkedExamplesUnderTheDefaults
  intro cfg hdigits hminus
  have hdigit8 : rom cfg 0x38#8 = 0x7F#7 := calc
    rom cfg 0x38#8 = cfg.digitPat[(8 : Fin 10)] := rom_digit cfg 8
    _ = 0x7F#7 := by rw [hdigits]; rfl
  have hblank (hmode : cfg.lowercaseMode = .blank) : rom cfg 0x61#8 = 0x00#7 :=
    rom_eq_blank (by decide) (by decide) (by decide) (by simp [hmode])
  exact ⟨hdigit8, (rom_minus cfg).trans hminus, rom_space cfg,
    rom_eq_blank (by decide) (by decide) (by decide) (by simp),
    rom_eq_blank (by decide) (by decide) (by decide) (by simp),
    rom_eq_blank (by decide) (by decide) (by decide) (by simp),
    hblank, fun hmode => (rom_lower hmode 0).trans (rom_upper cfg 0).symm⟩

end Sys2Proof.Machine

/-!
The buffer operations (spec/41_buffer_ops.md): what each leaves in the overlay bits by position (R90 to R96), and the laws of R99
that follow from the access table (spec/10_state.md R23).
-/
namespace Sys2Proof.Machine

/-! ### The meanings of the buffer operations -/

section
variable (s : State)

theorem exec_clrBatt : exec .clrBatt s = .next (s.withBuf s.buf.clearBatt) := rfl
theorem exec_clrDp : exec .clrDp s = .next (s.withBuf s.buf.clearDp) := rfl
theorem exec_clrGlyph : exec .clrGlyph s = .next (s.withBuf s.buf.clearGlyphs) := rfl
theorem exec_wrBatt (percent : Byte) : exec (.wrBatt percent) s = .next (s.withBuf (battBuf percent s.buf)) := rfl
theorem exec_wrDp (pos : Byte) : exec (.wrDp pos) s = .next (s.withBuf (dpBuf pos s.buf)) := rfl

end

/-! ### The overlay bits by position (R22) -/

section
variable {i : Fin 6}

theorem isBattPos_of_lt (h : i.val < 3) : isBattPos i = true := decide_eq_true h
theorem isBattPos_of_ge (h : 3 ≤ i.val) : isBattPos i = false := decide_eq_false (Nat.not_lt.2 h)
theorem isDpPos_of_lt (h : i.val < 3) : isDpPos i = false := decide_eq_false (Nat.not_le.2 h)
theorem isDpPos_of_ge (h : 3 ≤ i.val) : isDpPos i = true := decide_eq_true h

variable (b : SegBuf)

theorem ovl_clearBatt_of_lt (h : i.val < 3) : ovl (b.clearBatt.get i) = false := by
  rw [ovl_clearBatt, isBattPos_of_lt h, Bool.not_true, Bool.false_and]

theorem ovl_clearBatt_of_ge (h : 3 ≤ i.val) : ovl (b.clearBatt.get i) = ovl (b.get i) := by
  rw [ovl_clearBatt, isBattPos_of_ge h, Bool.not_false, Bool.true_and]

theorem ovl_clearDp_of_lt (h : i.val < 3) : ovl (b.clearDp.get i) = ovl (b.get i) := by
  rw [ovl_clearDp, isDpPos_of_lt h, Bool.not_false, Bool.true_and]

theorem ovl_clearDp_of_ge (h : 3 ≤ i.val) : ovl (b.clearDp.get i) = false := by
  rw [ovl_clearDp, isDpPos_of_ge h, Bool.not_true, Bool.false_and]

/-- `WR_TEXT` leaves the overlay bits as `CLR_DP` does. -/
theorem ovl_textBuf_eq_clearDp (cfg : Config) (len : BitVec 3) (chars : Fin 6 → Byte) (i : Fin 6) :
    ovl ((textBuf cfg len chars b).get i) = ovl (b.clearDp.get i) := by
  rw [ovl_textBuf, ovl_clearDp]

theorem ovl_battBuf_of_lt (p : Byte) (h : i.val < 3) : ovl ((battBuf p b).get i) = battFlag p i := by
  rw [ovl_battBuf, isBattPos_of_lt h, Bool.not_true, Bool.false_and, Bool.or_false]

theorem ovl_battBuf_of_ge (p : Byte) (h : 3 ≤ i.val) : ovl ((battBuf p b).get i) = ovl (b.get i) := by
  rw [ovl_battBuf, battFlag_of_dp p (isBattPos_of_ge h), isBattPos_of_ge h, Bool.not_false, Bool.true_and, Bool.false_or]

theorem ovl_dpBuf_of_lt (pos : Byte) (h : i.val < 3) : ovl ((dpBuf pos b).get i) = ovl (b.get i) := by
  rw [ovl_dpBuf, dpFlag_of_batt pos (isDpPos_of_lt h), isDpPos_of_lt h, Bool.not_false, Bool.true_and, Bool.false_or]

theorem ovl_dpBuf_of_ge (pos : Byte) (h : 3 ≤ i.val) : ovl ((dpBuf pos b).get i) = dpFlag pos i := by
  rw [ovl_dpBuf, isDpPos_of_ge h, Bool.not_true, Bool.false_and, Bool.or_false]

/-- `CLR_BATT` changes nothing when the battery flags are already clear (R90). -/
theorem clearBatt_eq_self {b : SegBuf} (hclear : ∀ i : Fin 6, i.val < 3 → ovl (b.get i) = false) : b.clearBatt = b := by
  refine segBuf_ext_fields (fun i => ?_) (glyph_clearBatt b)
  by_cases hi : i.val < 3
  · rw [ovl_clearBatt_of_lt b hi, hclear i hi]
  · exact ovl_clearBatt_of_ge b (Nat.not_lt.1 hi)

end

/-! ### The bits of the access table (R23) -/

/-- A buffer is its 48 bits. -/
theorem segBuf_ext_bits {b c : SegBuf} (h : ∀ (p : Fin 6) (k : Nat), (b.get p).getLsbD k = (c.get p).getLsbD k) : b = c :=
  segBuf_ext fun p => BitVec.eq_of_getLsbD_eq fun k _ => h p k

section
variable (cfg : Config) {i j : Instr} {p : Fin 6} {k : Nat} (b b' : SegBuf)

/-- A bit outside its row an operation keeps. -/
theorem bufAfter_bit_kept (h : (writeMask i p).getLsbD k = false) :
    ((bufAfter cfg i b).get p).getLsbD k = (b.get p).getLsbD k := by
  by_cases hk : k < 8
  · simpa only [BitVec.getLsbD_and, BitVec.getLsbD_not, h, hk, decide_true, Bool.not_false, Bool.and_true] using
      congrArg (·.getLsbD k) (bufAfter_outside_writeMask cfg i b p)
  · rw [BitVec.getLsbD_of_ge _ k (Nat.not_lt.1 hk), BitVec.getLsbD_of_ge _ k (Nat.not_lt.1 hk)]

/-- A bit inside its row an operation writes whatever the buffer held. -/
theorem bufAfter_bit_written (h : (writeMask i p).getLsbD k = true) :
    ((bufAfter cfg i b).get p).getLsbD k = ((bufAfter cfg i b').get p).getLsbD k := by
  simpa [h] using congrArg (·.getLsbD k) (bufAfter_inside_writeMask cfg i b b' p)

/-- Every bit is written again with the same value, or kept both times. -/
theorem bufAfter_bufAfter (i : Instr) : bufAfter cfg i (bufAfter cfg i b) = bufAfter cfg i b := by
  refine segBuf_ext_bits fun p k => ?_
  cases h : (writeMask i p).getLsbD k
  · exact bufAfter_bit_kept cfg (bufAfter cfg i b) h
  · exact bufAfter_bit_written cfg (bufAfter cfg i b) b h

/-- No bit of the buffer is in the rows of both operations. -/
def RowsDisjoint (i j : Instr) : Prop := ∀ p, writeMask i p &&& writeMask j p = 0x00#8

/-- Operations that write different bits commute: a bit in the row of one is kept by the other. -/
theorem bufAfter_comm (h : RowsDisjoint i j) :
    bufAfter cfg i (bufAfter cfg j b) = bufAfter cfg j (bufAfter cfg i b) := by
  refine segBuf_ext_bits fun p k => ?_
  have hnot : ((writeMask i p).getLsbD k && (writeMask j p).getLsbD k) = false := by
    rw [← BitVec.getLsbD_and, h p, BitVec.getLsbD_zero]
  cases hi : (writeMask i p).getLsbD k
  · rw [bufAfter_bit_kept cfg (bufAfter cfg j b) hi]
    cases hj : (writeMask j p).getLsbD k
    · rw [bufAfter_bit_kept cfg b hj, bufAfter_bit_kept cfg (bufAfter cfg i b) hj, bufAfter_bit_kept cfg b hi]
    · exact bufAfter_bit_written cfg b (bufAfter cfg i b) hj
  · have hj : (writeMask j p).getLsbD k = false := by simpa [hi] using hnot
    rw [bufAfter_bit_kept cfg (bufAfter cfg i b) hj]
    exact bufAfter_bit_written cfg (bufAfter cfg j b) b hi

end

/-! ### Buffer operations one after the other (R99) -/

theorem opcode_wrText_lt (len : BitVec 3) (c0 c1 c2 c3 c4 c5 : Byte) : (Instr.wrText len c0 c1 c2 c3 c4 c5).opcode.toNat < 8 :=
  show (0x5#4).toNat < 8 by decide
theorem opcode_wrBatt_lt (p : Byte) : (Instr.wrBatt p).opcode.toNat < 8 := show (0x6#4).toNat < 8 by decide
theorem opcode_wrDp_lt (q : Byte) : (Instr.wrDp q).opcode.toNat < 8 := show (0x7#4).toNat < 8 by decide

/-- A buffer operation runs again on the state it answers without changing it. -/
theorem exec_buffer_again {i : Instr} (s : State) (h : i.opcode.toNat < 8) :
    exec i (s.withBuf (bufAfter s.cfg i s.buf)) = .next (s.withBuf (bufAfter s.cfg i s.buf)) := by
  rw [exec_buffer _ h, withBuf_withBuf, withBuf_cfg, withBuf_buf, bufAfter_bufAfter]

/-- Buffer operations one after the other change the buffer only, each taking the buffer the one before it left. -/
theorem execSeq_buffer {is : List Instr} (s : State) (h : ∀ i ∈ is, i.opcode.toNat < 8) :
    execSeq is s = .next (s.withBuf (is.foldl (fun b i => bufAfter s.cfg i b) s.buf)) := by
  induction is generalizing s with
  | nil => rfl
  | cons i is ih =>
    obtain ⟨hi, his⟩ := List.forall_mem_cons.1 h
    simp only [execSeq, exec_buffer s hi, ih _ his]
    rfl

theorem execSeq_pair {i j : Instr} (s : State) (hi : i.opcode.toNat < 8) (hj : j.opcode.toNat < 8) :
    execSeq [i, j] s = .next (s.withBuf (bufAfter s.cfg j (bufAfter s.cfg i s.buf))) :=
  execSeq_buffer s (by simp [hi, hj])

/-- Buffer operations that write different bits can be run in any order. -/
theorem execSeq_perm {is js : List Instr} (s : State) (hperm : is.Perm js) (hops : ∀ i ∈ is, i.opcode.toNat < 8)
    (hrows : is.Pairwise RowsDisjoint) : execSeq is s = execSeq js s := by
  have hcomm : ∀ i ∈ is, ∀ j ∈ is, ∀ b, bufAfter s.cfg j (bufAfter s.cfg i b) = bufAfter s.cfg i (bufAfter s.cfg j b) :=
    List.Pairwise.forall_of_forall_of_flip (R := fun i j => ∀ b,
      bufAfter s.cfg j (bufAfter s.cfg i b) = bufAfter s.cfg i (bufAfter s.cfg j b)) (fun _ _ _ => rfl)
      (hrows.imp fun h b => (bufAfter_comm s.cfg b h).symm) (hrows.imp fun h b => bufAfter_comm s.cfg b h)
  rw [execSeq_buffer s hops, execSeq_buffer s fun i hi => hops i (hperm.mem_iff.2 hi), hperm.foldl_eq' hcomm]

theorem execSeq_pair_comm {i j : Instr} (s : State) (hi : i.opcode.toNat < 8) (hj : j.opcode.toNat < 8)
    (hrows : RowsDisjoint i j) : execSeq [i, j] s = execSeq [j, i] s :=
  execSeq_perm s (.swap j i []) (by simp [hi, hj]) (by simp [hrows])

/-- The three clears one after the other are `CLR_ALL` as R93 defines it. -/
theorem execSeq_clears (s : State) : execSeq [.clrBatt, .clrDp, .clrGlyph] s = exec .clrAll s := rfl

/-! ### The operands of `WR_BATT` and `WR_DP` -/

/-- An operand outside 1..3 sets no decimal-point flag (R96). -/
theorem dpFlag_eq_false {pos : Byte} (h : pos.toNat = 0 ∨ 3 < pos.toNat) (i : Fin 6) : dpFlag pos i = false := by
  rw [dpFlag_eq]
  exact decide_eq_false (by omega)

/-- The battery bars by band, from the left (R95): one bar more for each threshold passed, the rightmost first. -/
theorem battFlags_of_band (p : Byte) :
    [battFlag p 0, battFlag p 1, battFlag p 2] =
      if p.toNat ≤ 25 then [false, false, false] else if p.toNat ≤ 50 then [false, false, true]
      else if p.toNat ≤ 75 then [false, true, true] else [true, true, true] := by
  rw [battFlag_zero, battFlag_one, battFlag_two]
  split_ifs <;> simp <;> omega

/-! ### The glyphs of a text -/

theorem textGlyph_of_lt_effLen (cfg : Config) {len : BitVec 3} (chars : Fin 6 → Byte) {i : Fin 6} (h : i.val < effLen len) :
    textGlyph cfg len chars i = rom cfg (chars i) := if_pos h

/-- The example of R94: "-12345" into the all-zero buffer. -/
theorem textBuf_example {cfg : Config} (hdigits : cfg.digitPat = Config.defaultDigitPat) (hminus : cfg.minusPat = 0x02#7) :
    textBuf cfg 6#3 (charAt 0x2D#8 0x31#8 0x32#8 0x33#8 0x34#8 0x35#8) ⟨0x00#8, 0x00#8, 0x00#8, 0x00#8, 0x00#8, 0x00#8⟩ =
      ⟨0x02#8, 0x60#8, 0x3E#8, 0x7A#8, 0x63#8, 0x5B#8⟩ := by
  have hdigit (d : Fin 10) : rom cfg (BitVec.ofNat 8 (0x30 + d.val)) = Config.defaultDigitPat[d] := by
    rw [rom_digit, hdigits]
  refine segBuf_ext_fields (fun i => ?_) fun i => ?_
  · rw [ovl_textBuf]
    revert i
    decide
  · rw [glyph_textBuf, textGlyph_of_lt_effLen cfg _ (show i.val < effLen 6#3 from i.isLt)]
    match i with
    | 0 => exact (rom_minus cfg).trans hminus
    | 1 => exact hdigit 1
    | 2 => exact hdigit 2
    | 3 => exact hdigit 3
    | 4 => exact hdigit 4
    | 5 => exact hdigit 5

theorem length_filter_eq_count_map {α : Type} (f : α → Bool) (l : List α) : (l.filter f).length = (l.map f).count true := by
  rw [← List.countP_eq_length_filter, List.count, List.countP_map]
  exact List.countP_congr fun a _ => by simp

/-! ### The opcodes without an effect -/

/-- An operation without an effect (R66, R97). -/
theorem exec_decode_inert {w : CmdWord} (h : opField w = 0x0#4 ∨ 0xA ≤ (opField w).toNat) (s : State) :
    exec (decode w) s = .next s := by
  have hrows : opField w = 0x0#4 ∨ (opField w = 0xA#4 ∨ opField w = 0xB#4) ∨ 0xC ≤ (opField w).toNat := by bv_omega
  rcases hrows with hnop | hAB | hCF
  · rw [decode_nop hnop]; rfl
  · rw [decode_reservedAB hAB]; rfl
  · rw [decode_reservedCF hCF]; rfl

/-! ### The obligations of tier 2 -/

/-- Settles O19: the glyphs are `textGlyph`, the overlay bits those of `CLR_DP`. -/
theorem wrTextWritesTheGlyphsAndClearsTheDecimalPoint : Obligations.WrTextWritesTheGlyphsAndClearsTheDecimalPoint := by
  unfold Obligations.WrTextWritesTheGlyphsAndClearsTheDecimalPoint
  refine ⟨fun w => decode_wrText, fun s len c0 c1 c2 c3 c4 c5 => ?_, fun s c0 c1 c2 c3 c4 c5 => ?_,
    fun s hdigits hminus hbuf => ?_⟩
  · refine ⟨_, exec_wrText .., fun i hi => ?_, fun i hi => ?_, fun i hi => ?_, fun i hi => ?_, ?_⟩
    · exact (glyph_textBuf ..).trans (textGlyph_of_lt_effLen s.cfg _ hi)
    · exact (glyph_textBuf ..).trans (textGlyph_of_effLen_le s.cfg _ hi)
    · rw [ovl_textBuf_eq_clearDp, ovl_clearDp_of_lt s.buf hi]
    · rw [ovl_textBuf_eq_clearDp, ovl_clearDp_of_ge s.buf hi]
    · exact exec_buffer_again s (opcode_wrText_lt len c0 c1 c2 c3 c4 c5)
  · have hglyphs := textGlyph_congr s.cfg (len := 7#3) (len' := 6#3) rfl fun i _ => Eq.refl (charAt c0 c1 c2 c3 c4 c5 i)
    rw [exec_wrText, exec_wrText, textBuf_congr s.buf hglyphs]
  · rw [exec_wrText, hbuf, textBuf_example hdigits hminus]
    rfl

/-- Settles O21: the overlay bits of the decimal-point positions are `dpFlag`. -/
theorem wrDpSetsTheFlagCountedFromTheRight : Obligations.WrDpSetsTheFlagCountedFromTheRight := by
  unfold Obligations.WrDpSetsTheFlagCountedFromTheRight
  refine ⟨fun w => decode_wrDp, fun s pos => ⟨_, exec_wrDp s pos, fun i hi => ?_, fun i hi => ?_, ?_⟩, fun s hbuf => ?_⟩
  · rw [ovl_dpBuf_of_ge s.buf pos hi, dpFlag_eq]
  · exact ovl_dpBuf_of_lt s.buf pos hi
  · exact glyph_dpBuf pos s.buf
  · rw [exec_wrDp, hbuf]
    rfl

/-- Settles O22: the operation does nothing, so the step that accepts it only moves the ports on. -/
theorem nopAndReservedOpcodesChangeNothing : Obligations.NopAndReservedOpcodesChangeNothing := by
  unfold Obligations.NopAndReservedOpcodesChangeNothing
  refine ⟨fun w => decode_nop, fun s => rfl, fun op s => ⟨rfl, rfl⟩, fun s haccepts hop => ⟨?_, ?_⟩⟩
  · rw [step_accept haccepts, exec_decode_inert hop]
  · rw [nextPort_ready, ready_iff]
    exact txPhase_of_accepts haccepts

/-- Settles O23: an accepted buffer operation changes the buffer only, and a busy block sends. -/
theorem bufferOperationsTakeOneCycleWithoutPinEvents : Obligations.BufferOperationsTakeOneCycleWithoutPinEvents := by
  unfold Obligations.BufferOperationsTakeOneCycleWithoutPinEvents
  refine ⟨fun s haccepts hop => ?_, fun s hready hrst => ?_⟩
  · have hstep : step s = .next (s.nextPort.withBuf (bufAfter s.cfg (decode s.portNow.cmdWord) s.buf)) := by
      rw [step_accept haccepts, exec_buffer _ (by rwa [opcode_decode]), nextPort_cfg, nextPort_buf]
    have hidle : s.txPhase = .idle := txPhase_of_accepts haccepts
    refine ⟨hstep, fun t ht => ?_⟩
    cases hstep.symm.trans ht
    exact ⟨rfl, rfl, hidle, (ready_iff _).2 hidle⟩
  · have hbusy : s.txPhase ≠ .idle := (not_ready_iff s).1 hready
    obtain ⟨-, -, -, -, -, hbuf, -⟩ := transmit_busy (s := s.nextPort) hbusy
    exact ⟨_, step_busy hrst hbusy, hbuf⟩

/-- Settles O25: a second run finds every bit it writes already written. -/
theorem bufferOperationsAreIdempotent : Obligations.BufferOperationsAreIdempotent := by
  unfold Obligations.BufferOperationsAreIdempotent
  exact fun i s hop => ⟨_, exec_buffer s hop, exec_buffer_again s hop⟩

/-- Settles O26: the clears write different bits, and so do `WR_BATT`, `WR_DP` and `CLR_GLYPH`, whose rows are those of the clears. -/
theorem clearsAndFlagWritesCommute : Obligations.ClearsAndFlagWritesCommute := by
  unfold Obligations.ClearsAndFlagWritesCommute
  intro s p q
  have hbattDp : RowsDisjoint .clrBatt .clrDp := by unfold RowsDisjoint; decide
  have hbattGlyph : RowsDisjoint .clrBatt .clrGlyph := by unfold RowsDisjoint; decide
  have hdpGlyph : RowsDisjoint .clrDp .clrGlyph := by unfold RowsDisjoint; decide
  have hbatt := opcode_wrBatt_lt p
  have hdp := opcode_wrDp_lt q
  refine ⟨execSeq_pair_comm s (by decide) (by decide) hbattDp, execSeq_pair_comm s (by decide) (by decide) hbattGlyph,
    execSeq_pair_comm s (by decide) (by decide) hdpGlyph, fun is hperm => ?_,
    execSeq_pair_comm s hbatt hdp hbattDp, execSeq_pair_comm s hbatt (by decide) hbattGlyph,
    execSeq_pair_comm s hdp (by decide) hdpGlyph⟩
  calc execSeq is s
    _ = execSeq [.clrBatt, .clrDp, .clrGlyph] s :=
        (execSeq_perm s (List.mem_permutations.1 hperm).symm (by decide) (by simp [hbattDp, hbattGlyph, hdpGlyph])).symm
    _ = exec .clrAll s := execSeq_clears s

/-- Settles O27: both orders write the glyphs of the text; the later operation decides the decimal-point flags. -/
theorem textClearsAnEarlierDecimalPoint : Obligations.TextClearsAnEarlierDecimalPoint := by
  unfold Obligations.TextClearsAnEarlierDecimalPoint
  intro s len c0 c1 c2 c3 c4 c5 q
  have htext := opcode_wrText_lt len c0 c1 c2 c3 c4 c5
  have hdp := opcode_wrDp_lt q
  refine ⟨s.withBuf (dpBuf q (textBuf s.cfg len (charAt c0 c1 c2 c3 c4 c5) s.buf)),
    s.withBuf (textBuf s.cfg len (charAt c0 c1 c2 c3 c4 c5) (dpBuf q s.buf)),
    execSeq_pair s htext hdp, execSeq_pair s hdp htext, fun i => ?_, fun i hi => ⟨?_, ?_⟩, fun i hi => ⟨?_, ?_⟩⟩
  · rw [withBuf_buf, withBuf_buf, glyph_dpBuf, glyph_textBuf, glyph_textBuf]
  · rw [withBuf_buf, ovl_dpBuf_of_lt _ q hi, ovl_textBuf_eq_clearDp, ovl_clearDp_of_lt _ hi]
  · rw [withBuf_buf, ovl_textBuf_eq_clearDp, ovl_clearDp_of_lt _ hi, ovl_dpBuf_of_lt _ q hi]
  · rw [withBuf_buf, ovl_dpBuf_of_ge _ q hi, dpFlag_eq]
  · rw [withBuf_buf, ovl_textBuf_eq_clearDp, ovl_clearDp_of_ge _ hi]

/-- Settles O30: the flags of the three battery positions are those of the band. -/
theorem batteryShowsZeroToThreeRightmostBars : Obligations.BatteryShowsZeroToThreeRightmostBars := by
  unfold Obligations.BatteryShowsZeroToThreeRightmostBars
  intro s p
  have hbar {i : Fin 6} (hi : i.val < 3) : ovl ((s.withBuf (battBuf p s.buf)).buf.get i) = battFlag p i :=
    ovl_battBuf_of_lt s.buf p hi
  have hbars : ([0, 1, 2] : List (Fin 6)).map (fun i => ovl ((s.withBuf (battBuf p s.buf)).buf.get i)) =
      [battFlag p 0, battFlag p 1, battFlag p 2] := by
    simp only [List.map_cons, List.map_nil, hbar (i := 0) (by decide), hbar (i := 1) (by decide), hbar (i := 2) (by decide)]
  refine ⟨_, exec_wrBatt s p, ?_, ?_, ?_⟩
  · rw [length_filter_eq_count_map, hbars, battFlags_of_band]
    split_ifs <;> rfl
  · rw [hbar (by decide), hbar (by decide), battFlag_zero, battFlag_one, decide_eq_true_eq, decide_eq_true_eq]
    omega
  · rw [hbar (by decide), hbar (by decide), battFlag_one, battFlag_two, decide_eq_true_eq, decide_eq_true_eq]
    omega

/-! ### The obligations of tier 1 -/

/-- Settles O15: the glyph and overlay laws of `clearBatt`, position by position. -/
theorem clrBattClearsTheBatteryFlagsOnly : Obligations.ClrBattClearsTheBatteryFlagsOnly := by
  unfold Obligations.ClrBattClearsTheBatteryFlagsOnly
  refine ⟨fun w => decode_clrBatt, fun s => ⟨_, exec_clrBatt s, glyph_clearBatt s.buf,
    fun i => ovl_clearBatt_of_lt s.buf, fun i => ovl_clearBatt_of_ge s.buf, clearBatt_eq_self⟩, fun s hbuf => ?_⟩
  rw [exec_clrBatt, hbuf]
  rfl

/-- Settles O16: the glyph and overlay laws of `clearDp`, position by position. -/
theorem clrDpClearsTheDecimalPointFlagsOnly : Obligations.ClrDpClearsTheDecimalPointFlagsOnly := by
  unfold Obligations.ClrDpClearsTheDecimalPointFlagsOnly
  refine ⟨fun w => decode_clrDp, fun s => ⟨_, exec_clrDp s, glyph_clearDp s.buf, fun i => ovl_clearDp_of_ge s.buf,
    fun i => ovl_clearDp_of_lt s.buf, exec_buffer_again (i := .clrDp) s (by decide)⟩, fun s hbuf => ?_⟩
  rw [exec_clrDp, hbuf]
  rfl

/-- Settles O17: the glyph and overlay laws of `clearGlyphs`. -/
theorem clrGlyphClearsTheGlyphsOnly : Obligations.ClrGlyphClearsTheGlyphsOnly := by
  unfold Obligations.ClrGlyphClearsTheGlyphsOnly
  refine ⟨fun w => decode_clrGlyph, fun s => ⟨_, exec_clrGlyph s,
    fun i => ⟨glyph_clearGlyphs s.buf i, ovl_clearGlyphs s.buf i⟩, exec_buffer_again (i := .clrGlyph) s (by decide)⟩,
    fun s hbuf => ?_, fun s hbuf => ?_⟩
  · rw [exec_clrGlyph, hbuf]
    rfl
  · rw [exec_clrGlyph, hbuf]
    rfl

/-- Settles O18: the all-zero buffer is the one `bufAfter` gives, and the three clears are the definition of `CLR_ALL`. -/
theorem clrAllZeroesTheBufferOnly : Obligations.ClrAllZeroesTheBufferOnly := by
  unfold Obligations.ClrAllZeroesTheBufferOnly
  have hzero (s : State) : exec .clrAll s = .next (s.withBuf ⟨0x00#8, 0x00#8, 0x00#8, 0x00#8, 0x00#8, 0x00#8⟩) :=
    exec_buffer s (by decide)
  refine ⟨fun w => decode_clrAll, fun s => ⟨hzero s, execSeq_clears s⟩, fun s haccepts hdecode => ?_⟩
  have hstep : step s = exec .clrAll s.nextPort := hdecode ▸ step_accept haccepts
  exact ⟨_, hstep.trans (hzero s.nextPort), show 0#8 ++ 0#8 ++ 0#8 ++ 0#8 ++ 0#8 ++ 0#8 = 0#48 by decide⟩

/-- Settles O20: the overlay bits of the battery positions are `battFlag`. -/
theorem wrBattSetsTheBarsAboveTheThresholds : Obligations.WrBattSetsTheBarsAboveTheThresholds := by
  unfold Obligations.WrBattSetsTheBarsAboveTheThresholds
  refine ⟨fun w => decode_wrBatt, fun s p => ⟨_, exec_wrBatt s p, ?_, ?_, ?_, fun i => ovl_battBuf_of_ge s.buf p,
    glyph_battBuf p s.buf⟩, fun s hbuf => ?_⟩
  · rw [ovl_battBuf_of_lt s.buf p (by decide), battFlag_zero]
  · rw [ovl_battBuf_of_lt s.buf p (by decide), battFlag_one]
  · rw [ovl_battBuf_of_lt s.buf p (by decide), battFlag_two]
  · rw [exec_wrBatt, hbuf]
    rfl

/-- Settles O29: no flag is raised after the clear. -/
theorem unsupportedDecimalPositionsOnlyClear : Obligations.UnsupportedDecimalPositionsOnlyClear := by
  unfold Obligations.UnsupportedDecimalPositionsOnlyClear
  intro s p hp
  have hbuf : dpBuf p s.buf = s.buf.clearDp := by
    refine segBuf_ext_fields (fun i => ?_) fun i => ?_
    · rw [ovl_dpBuf, dpFlag_eq_false hp, Bool.false_or, ovl_clearDp]
    · rw [glyph_dpBuf, glyph_clearDp]
  rw [exec_wrDp, exec_clrDp, hbuf]

end Sys2Proof.Machine

/-!
The packet encoder and the send operations (spec/42_packet_ops.md): the fields of both packets (R110, R113, R116), their byte arrays
(R111, R114), and what a send loads (R112, R115).
-/
namespace Sys2Proof.Machine

/-! ### The fields of the command packet (R110) -/

section
variable (cfg : Config) (code : Byte)

theorem pktCmd_tag : (pktCmd cfg code).extractLsb' 12 4 = cfg.cmdTag := by
  simp (disch := decide) only [pktCmd, BitVec.extractLsb'_append_eq_of_le, Nat.reduceSub, BitVec.extractLsb'_eq_self]

theorem pktCmd_code : (pktCmd cfg code).extractLsb' 4 8 = code := by
  simp (disch := decide) only [pktCmd, BitVec.extractLsb'_append_eq_of_le, Nat.reduceSub, BitVec.extractLsb'_append_eq_right]

theorem pktCmd_pad : (pktCmd cfg code).extractLsb' 0 4 = 0b0000#4 := BitVec.extractLsb'_append_eq_right

end

/-- R116(a): the code is a field of the packet. -/
theorem pktCmd_injective (cfg : Config) : Function.Injective (pktCmd cfg) :=
  Function.LeftInverse.injective (g := BitVec.extractLsb' 4 8) (pktCmd_code cfg)

/-! ### The fields of the data packet (R113) -/

section
variable (cfg : Config) (b : SegBuf)

theorem pktData_tag : (pktData cfg b).extractLsb' 61 3 = cfg.dataTag := by
  simp (disch := decide) only [pktData, BitVec.extractLsb'_append_eq_of_le, Nat.reduceSub, BitVec.extractLsb'_eq_self]

theorem pktData_addr : (pktData cfg b).extractLsb' 55 6 = startAddr := by
  simp (disch := decide) only [pktData, BitVec.extractLsb'_append_eq_of_le, Nat.reduceSub, BitVec.extractLsb'_append_eq_right]

theorem pktData_pad : (pktData cfg b).extractLsb' 0 7 = 0b0000000#7 := BitVec.extractLsb'_append_eq_right

/-- `BUF[i]` stands whole in the packet, above the padding and the bytes to its left on the display (the spec's reading D13). -/
theorem pktData_byte (i : Fin 6) : (pktData cfg b).extractLsb' (7 + 8 * i.val) 8 = b.get i := by
  apply BitVec.eq_of_getLsbD_eq
  intro k hk
  rw [BitVec.getLsbD_extractLsb', getLsbD_pktData]
  fin_cases i <;> simp (disch := omega) [SegBuf.get, hk, if_pos, if_neg]

/-- R116(b): the place of one bit of the buffer. -/
theorem pktData_bit (i : Fin 6) (k : Fin 8) :
    (pktData cfg b).getLsbD (7 + 16 * (i.val / 2) + 8 * (i.val % 2) + k.val) = (b.get i).getLsbD k.val := by
  rw [← pktData_byte cfg b i, BitVec.getLsbD_extractLsb', decide_eq_true k.isLt, Bool.true_and,
    show 7 + 16 * (i.val / 2) + 8 * (i.val % 2) = 7 + 8 * i.val by omega]

end

/-- R116(b): every byte of the buffer is a field of the packet. -/
theorem pktData_injective (cfg : Config) : Function.Injective (pktData cfg) := fun b b' h =>
  segBuf_ext fun i => by rw [← pktData_byte cfg b i, h, pktData_byte]

/-- The packet of the all-zero buffer is the tag alone (R115). -/
theorem pktData_zeroBuf (cfg : Config) : pktData cfg State.reset.buf = cfg.dataTag ++ 0#61 := by
  have hzero (tag : BitVec 3) : tag ++ startAddr ++ word0 State.reset.buf ++ word1 State.reset.buf ++
      word2 State.reset.buf ++ 0b0000000#7 = tag ++ 0#61 := by
    revert tag
    decide
  exact hzero cfg.dataTag

/-! ### Bytes that straddle two fields -/

/-- A slice of a field is a slice of the packet. -/
theorem extractLsb'_field {w n a m : Nat} (P : BitVec w) (start : Nat) (h : a + m ≤ n) :
    (P.extractLsb' start n).extractLsb' a m = P.extractLsb' (start + a) m := by
  apply BitVec.eq_of_getLsbD_eq
  intro k hk
  rw [BitVec.getLsbD_extractLsb', BitVec.getLsbD_extractLsb', BitVec.getLsbD_extractLsb', decide_eq_true (by omega : a + k < n),
    Bool.true_and, Nat.add_assoc]

/-- A slice that takes the upper `m` bits of one field and the lower `l` bits of the field above it. -/
theorem extractLsb'_straddle {w k m n l : Nat} (P : BitVec w) {start next : Nat} {low : BitVec (k + m)} {high : BitVec n}
    (hlow : P.extractLsb' start (k + m) = low) (hhigh : P.extractLsb' next n = high) (hnext : next = start + (k + m))
    (hl : l ≤ n) : P.extractLsb' (start + k) (l + m) = high.extractLsb' 0 l ++ low.extractLsb' k m := by
  rw [← hlow, ← hhigh, extractLsb'_field P start (Nat.le_refl _), extractLsb'_field P next (by omega), Nat.add_zero]
  exact (BitVec.extractLsb'_append_extractLsb'_eq_extractLsb' (by omega)).symm

/-- The two bytes of a command packet (R111). -/
theorem cmdBytes_eq (cfg : Config) (code : Byte) :
    cmdBytes cfg code = [cfg.cmdTag ++ code.extractLsb' 4 4, code.extractLsb' 0 4 ++ 0b0000#4] := by
  have hB0 := extractLsb'_straddle (k := 4) (m := 4) (l := 4) _ (pktCmd_code cfg code) (pktCmd_tag cfg code) rfl (by decide)
  have hB1 := extractLsb'_straddle (k := 0) (m := 4) (l := 4) _ (pktCmd_pad cfg code) (pktCmd_code cfg code) rfl (by decide)
  rw [BitVec.extractLsb'_eq_self] at hB0 hB1
  exact List.cons_eq_cons.2 ⟨hB0, List.cons_eq_cons.2 ⟨hB1, rfl⟩⟩

/-- A byte of a data packet that straddles two neighbouring bytes of the buffer (R114). -/
theorem pktData_straddle (cfg : Config) (b : SegBuf) {i j : Fin 6} (h : j.val = i.val + 1) :
    (pktData cfg b).extractLsb' (8 * (i.val + 1)) 8 = (b.get j).extractLsb' 0 1 ++ (b.get i).extractLsb' 1 7 := by
  rw [show 8 * (i.val + 1) = 7 + 8 * i.val + 1 by omega]
  exact extractLsb'_straddle (k := 1) (m := 7) (l := 1) _ (pktData_byte cfg b i) (pktData_byte cfg b j) (by omega) (by decide)

/-- The eight bytes of a data packet (R114). -/
theorem dataBytes_eq (cfg : Config) (b : SegBuf) : dataBytes cfg b =
    [cfg.dataTag ++ startAddr.extractLsb' 1 5,
     startAddr.extractLsb' 0 1 ++ b.b5.extractLsb' 1 7,
     b.b5.extractLsb' 0 1 ++ b.b4.extractLsb' 1 7,
     b.b4.extractLsb' 0 1 ++ b.b3.extractLsb' 1 7,
     b.b3.extractLsb' 0 1 ++ b.b2.extractLsb' 1 7,
     b.b2.extractLsb' 0 1 ++ b.b1.extractLsb' 1 7,
     b.b1.extractLsb' 0 1 ++ b.b0.extractLsb' 1 7,
     b.b0.extractLsb' 0 1 ++ 0b0000000#7] := by
  have hB0 := extractLsb'_straddle (k := 1) (m := 5) (l := 3) _ (pktData_addr cfg b) (pktData_tag cfg b) rfl (by decide)
  have hB1 := extractLsb'_straddle (k := 1) (m := 7) (l := 1) _ (pktData_byte cfg b 5) (pktData_addr cfg b) rfl (by decide)
  have hB7 := extractLsb'_straddle (k := 0) (m := 7) (l := 1) _ (pktData_pad cfg b) (pktData_byte cfg b 0) rfl (by decide)
  rw [BitVec.extractLsb'_eq_self] at hB0 hB7
  calc dataBytes cfg b = [_, _, _, _, _, _, _, _] := rfl
    _ = _ := by
      simp only [List.cons.injEq, and_true]
      exact ⟨hB0, hB1, pktData_straddle cfg b (i := 4) (j := 5) rfl, pktData_straddle cfg b (i := 3) (j := 4) rfl,
        pktData_straddle cfg b (i := 2) (j := 3) rfl, pktData_straddle cfg b (i := 1) (j := 2) rfl,
        pktData_straddle cfg b (i := 0) (j := 1) rfl, hB7⟩

/-! ### The meanings of the send operations -/

theorem exec_sendCmd (code : Byte) (s : State) :
    exec (.sendCmd code) s = .next (loadPacket (pktCmd s.cfg code ++ 0#48) 16 s) := rfl

theorem exec_sendBuf (s : State) : exec .sendBuf s = .next (loadPacket (pktData s.cfg s.buf) 64 s) := rfl

/-! ### The obligations -/

/-- Settles O32: the fields of the packet, one lemma each, and a buffer is its six byte fields. -/
theorem dataPacketHoldsEveryBufferBitOnce : Obligations.DataPacketHoldsEveryBufferBitOnce := by
  unfold Obligations.DataPacketHoldsEveryBufferBitOnce
  exact fun cfg b => ⟨pktData_tag cfg b, pktData_addr cfg b, pktData_pad cfg b, pktData_bit cfg b,
    fun _ h => pktData_injective cfg h⟩

/-- Settles O33: each byte of the array straddles two fields of the packet. -/
theorem packetByteArraysAreTheTables : Obligations.PacketByteArraysAreTheTables := by
  unfold Obligations.PacketByteArraysAreTheTables
  exact ⟨cmdBytes_eq, dataBytes_eq⟩

/-- Settles O31: the fields of the packet, one lemma each. -/
theorem commandPacketHasTagCodeAndPadding : Obligations.CommandPacketHasTagCodeAndPadding := by
  unfold Obligations.CommandPacketHasTagCodeAndPadding
  exact fun cfg code => ⟨pktCmd_tag cfg code, pktCmd_code cfg code, pktCmd_pad cfg code, fun _ h => pktCmd_injective cfg h⟩

/-- Settles O36: the two cases of `loadPacket`. -/
theorem sendCmdLoadsTheCommandPacket : Obligations.SendCmdLoadsTheCommandPacket := by
  unfold Obligations.SendCmdLoadsTheCommandPacket
  refine ⟨fun w => decode_sendCmd, fun s code hcs => ?_, fun s code hcs => ?_, fun s hcs htag => ?_⟩
  · rw [exec_sendCmd, loadPacket_present _ _ hcs]
  · rw [exec_sendCmd, loadPacket_absent _ _ hcs]
  · have hpacket : pktCmd s.cfg 0x06#8 ++ 0#48 = 0x8060000000000000#64 := by
      rw [pktCmd, htag]
      decide
    rw [exec_sendCmd, loadPacket_present _ _ hcs, hpacket]

/-- Settles O37: the two cases of `loadPacket`. -/
theorem sendBufLoadsASnapshotOfTheBuffer : Obligations.SendBufLoadsASnapshotOfTheBuffer := by
  unfold Obligations.SendBufLoadsASnapshotOfTheBuffer
  refine ⟨fun w => decode_sendBuf, fun s hcs => ?_, fun s hcs => ?_, fun s hcs htag hbuf => ?_, fun s hcs hbuf => ?_⟩
  · rw [exec_sendBuf, loadPacket_present _ _ hcs]
  · rw [exec_sendBuf, loadPacket_absent _ _ hcs]
  · have hpacket : pktData s.cfg s.buf = 0xA02DB1BD1F300100#64 := by
      rw [pktData, htag, hbuf]
      decide
    rw [exec_sendBuf, loadPacket_present _ _ hcs, hpacket]
  · rw [exec_sendBuf, loadPacket_present _ _ hcs, hbuf, pktData_zeroBuf]

end Sys2Proof.Machine

/-!
The transmitter on its own: one cycle in each phase (spec/43_transmitter.md R132 to R136), the stability of `DATA` (R142), and runs without
a reset, with a transaction under way (R130, R138) or without a chip-select (R139).
-/
namespace Sys2Proof.Machine

/-! ### One cycle of the sequencer in each phase -/

section
variable {s : State}

theorem transmit_csLo (hp : s.txPhase = .csLo) : transmit s = phaseCsLo s := by rw [transmit, hp]
theorem transmit_bitD (hp : s.txPhase = .bitD) : transmit s = phaseBitD s := by rw [transmit, hp]
theorem transmit_bitCl (hp : s.txPhase = .bitCl) : transmit s = phaseBitCl s := by rw [transmit, hp]
theorem transmit_csHi (hp : s.txPhase = .csHi) : transmit s = phaseCsHi s := by rw [transmit, hp]

theorem transmit_bitCh_of_lt (hp : s.txPhase = .bitCh) (h : s.bidx + 1 < s.nbits) :
    transmit s = { emit .clk true s with bidx := s.bidx + 1, txPhase := .bitD } := by
  rw [transmit, hp]
  exact if_pos h

theorem transmit_bitCh_of_ge (hp : s.txPhase = .bitCh) (h : s.nbits ≤ s.bidx + 1) :
    transmit s = { emit .clk true s with txPhase := .csHi } := by
  rw [transmit, hp]
  exact if_neg (Nat.not_lt.2 h)

/-- A step in a phase other than `IDLE` is that phase's cycle of the sequencer. -/
theorem step_of_transmit {t : State} {p : TxPhase} (hrst : s.portNow.rst = false) (hp : s.txPhase = p) (hbusy : p ≠ .idle)
    (ht : transmit s.nextPort = t) : step s = .next t := by
  rw [step_busy hrst (hp ▸ hbusy), ht]

/-! ### `DATA` -/

/-- Every phase but `BIT_D` leaves `DATA` as it is. -/
theorem transmit_pins_data (hp : s.txPhase ≠ .bitD) : (transmit s).pins.data = s.pins.data := by
  cases h : s.txPhase
  case idle => rw [transmit, h]
  case csLo => rw [transmit_csLo h]; rfl
  case bitD => exact absurd h hp
  case bitCl => rw [transmit_bitCl h]; rfl
  case bitCh =>
    by_cases hmore : s.bidx + 1 < s.nbits
    · rw [transmit_bitCh_of_lt h hmore]; rfl
    · rw [transmit_bitCh_of_ge h (by omega)]; rfl
  case csHi => rw [transmit_csHi h]; rfl

/-- Without a reset, a step in any phase but `BIT_D` leaves `DATA` as it is. -/
theorem step_pins_data {t : State} (hrst : s.portNow.rst = false) (hp : s.txPhase ≠ .bitD) (ht : step s = .next t) :
    t.pins.data = s.pins.data := by
  rcases step_cases s with ⟨hreset, -⟩ | ⟨-, -, hbusy⟩ | ⟨-, haccept⟩ | ⟨-, -, -, hquiet⟩
  · simp [hrst] at hreset
  · cases hbusy.symm.trans ht
    exact transmit_pins_data (s := s.nextPort) hp
  · obtain ⟨-, hpins, -⟩ := exec_frame (haccept.symm.trans ht)
    rw [hpins, nextPort_pins]
  · cases hquiet.symm.trans ht
    rfl

/-- Around the clock edges of a bit, `DATA` holds that bit. -/
theorem data_eq_wireBit (h : s.Inv) (hp : s.txPhase = .bitCl ∨ s.txPhase = .bitCh) : s.pins.data = wireBit s := by
  rcases hp with hp | hp
  · obtain ⟨-, hpins, -⟩ := (inv_bitCl_iff hp).1 h
    rw [hpins]
  · obtain ⟨-, hpins, -⟩ := (inv_bitCh_iff hp).1 h
    rw [hpins]

/-! ### Runs without a reset -/

theorem noReset_mono {j k : Nat} (hjk : j ≤ k) (h : s.noReset k) : s.noReset j :=
  fun p hp => h p ((List.take_sublist_take_left hjk).subset hp)

/-- Of the cycles without a reset, a step uses up the first. -/
theorem noReset_succ {t : State} {k : Nat} (h : s.noReset (k + 1)) (hinputs : t.inputs = s.inputs.tail) :
    s.portNow.rst = false ∧ t.noReset k := by
  unfold State.noReset at *
  rw [hinputs, State.portNow]
  cases hs : s.inputs with
  | nil => simp [PortIn.quiet]
  | cons p ps => simpa [hs] using h

/-- The block is ready exactly when the transmitter has no event left to make. -/
theorem ready_iff_pendingEvents_nil : s.ready = true ↔ pendingEvents s = [] :=
  (ready_iff s).trans ⟨pendingEvents_idle, idle_of_pendingEvents_nil⟩

/-- A step of the busy block makes the first pending event and leaves the others. -/
theorem step_pendingEvents {e : BusEvent} {es : List BusEvent} (hrst : s.portNow.rst = false)
    (hes : pendingEvents s = e :: es) :
    ∃ t, step s = .next t ∧ pendingEvents t = es ∧ t.obs = s.obs ++ [e] ∧ t.buf = s.buf ∧ t.inputs = s.inputs.tail := by
  have hp : s.nextPort.txPhase ≠ .idle := fun hidle => by simp [pendingEvents_idle (s := s) hidle] at hes
  obtain ⟨e', hpending, hobs⟩ := transmit_pendingEvents hp
  obtain ⟨rfl, rfl⟩ : e = e' ∧ es = pendingEvents (transmit s.nextPort) := List.cons.inj (hes.symm.trans hpending)
  obtain ⟨-, -, -, -, -, hbuf, -, -, hinputs⟩ := transmit_busy hp
  exact ⟨_, step_busy hrst hp, rfl, hobs, hbuf, hinputs⟩

end

/-- A run inside a transaction makes one pending event in each cycle, in their order, whatever the host presents. -/
theorem run_pendingEvents (k : Nat) {s : State} (hk : k ≤ (pendingEvents s).length) (hrst : s.noReset k) :
    ∃ t, run k s = .next t ∧ t.obs = s.obs ++ (pendingEvents s).take k ∧ pendingEvents t = (pendingEvents s).drop k ∧
      t.buf = s.buf := by
  induction k generalizing s with
  | zero => exact ⟨s, rfl, (List.append_nil _).symm, rfl, rfl⟩
  | succ k ih =>
    obtain ⟨e, es, hes⟩ := List.exists_cons_of_length_pos (Nat.zero_lt_of_lt hk)
    obtain ⟨hnow, -⟩ := noReset_succ (t := s.nextPort) hrst rfl
    obtain ⟨u, hstep, rfl, huobs, hubuf, hinputs⟩ := step_pendingEvents hnow hes
    obtain ⟨-, hlater⟩ := noReset_succ hrst hinputs
    rw [hes] at hk ⊢
    obtain ⟨t, hrun, hobs, hpending, hbuf⟩ := ih (Nat.le_of_succ_le_succ hk) hlater
    refine ⟨t, (run_succ k hstep).trans hrun, ?_, hpending, hbuf.trans hubuf⟩
    rw [hobs, huobs, List.append_assoc, List.singleton_append, List.take_succ_cons]

/-- From its accept cycle on an operation makes its events one in each cycle, and the block is ready again exactly when it is
complete (spec/43_transmitter.md R130, R138, spec/70_reset_and_hazards.md R180). -/
theorem run_accepted {s : State} {i : Instr} {n : Nat} {es : List BusEvent} (haccepts : s.accepts = true)
    (hi : decode s.portNow.cmdWord = i) (hn : opCycles s.cfg i = n) (hes : opEvents s.cfg i s.buf = es)
    (hrst : s.noReset n) {k : Nat} (hpos : 1 ≤ k) (hk : k ≤ n) :
    ∃ t, run k s = .next t ∧ t.obs = s.obs ++ es.take (k - 1) ∧ t.buf = bufAfter s.cfg i s.buf ∧
      t.ready = decide (k = n) := by
  obtain ⟨j, rfl⟩ : ∃ j, k = j + 1 := ⟨k - 1, by omega⟩
  obtain ⟨u, hexec⟩ := exec_next i s.nextPort
  obtain ⟨-, -, huobs, hinputs, hubuf⟩ := exec_frame hexec
  have hstep : step s = .next u := by rw [step_accept haccepts, hi, hexec]
  have hpending : pendingEvents u = es :=
    (pendingEvents_of_exec (s := s.nextPort) (txPhase_of_accepts (s := s) haccepts) hexec).trans hes
  have hlength : n = (pendingEvents u).length + 1 := by rw [← hn, opCycles_eq_length s.cfg i s.buf, hes, hpending]
  obtain ⟨-, hlater⟩ := noReset_succ (noReset_mono hk hrst) hinputs
  obtain ⟨t, hrun, hobs, hrest, hbuf⟩ := run_pendingEvents j (by omega) hlater
  refine ⟨t, (run_succ j hstep).trans hrun, ?_, hbuf.trans hubuf, ?_⟩
  · rw [hobs, huobs, hpending, nextPort_obs, Nat.add_sub_cancel]
  · rw [Bool.eq_iff_iff, ready_iff_pendingEvents_nil, hrest, List.drop_eq_nil_iff, decide_eq_true_iff]
    omega

/-! ### Without a chip-select -/

section
variable {s : State} (hcs : s.cfg.csPresent = false)
include hcs

theorem exec_send_of_no_chipSelect {i : Instr} (hi : i = .sendBuf ∨ ∃ code, i = .sendCmd code) : exec i s = .next s := by
  rcases hi with rfl | ⟨code, rfl⟩
  · rw [exec_sendBuf, loadPacket_absent _ _ hcs]
  · rw [exec_sendCmd, loadPacket_absent _ _ hcs]

/-- No operation leaves `IDLE`. -/
theorem exec_idle_of_no_chipSelect {i : Instr} {t : State} (hp : s.txPhase = .idle) (ht : exec i s = .next t) :
    t.txPhase = .idle := by
  rcases exec_cases i s with hbuf | ⟨code, rfl, -⟩ | ⟨rfl, -⟩
  · cases hbuf.symm.trans ht
    exact hp
  · cases (exec_send_of_no_chipSelect hcs (.inr ⟨code, rfl⟩)).symm.trans ht
    exact hp
  · cases (exec_send_of_no_chipSelect hcs (.inl rfl)).symm.trans ht
    exact hp

/-- A step from the idle block without a reset stays idle and makes no event. -/
theorem step_of_no_chipSelect {t : State} (hrst : s.portNow.rst = false) (hp : s.txPhase = .idle) (ht : step s = .next t) :
    t.txPhase = .idle ∧ t.obs = s.obs ∧ t.pins = s.pins := by
  rcases step_cases s with ⟨hreset, -⟩ | ⟨-, hbusy, -⟩ | ⟨-, haccept⟩ | ⟨-, -, -, hquiet⟩
  · simp [hrst] at hreset
  · exact absurd hp hbusy
  · have hexec : exec (decode s.portNow.cmdWord) s.nextPort = .next t := haccept.symm.trans ht
    obtain ⟨-, hpins, hobs, -, -⟩ := exec_frame hexec
    exact ⟨exec_idle_of_no_chipSelect (s := s.nextPort) hcs hp hexec, hobs, hpins⟩
  · cases hquiet.symm.trans ht
    exact ⟨hp, rfl, rfl⟩

end

theorem run_of_no_chipSelect (k : Nat) {s : State} (hcs : s.cfg.csPresent = false) (hp : s.txPhase = .idle)
    (hrst : s.noReset k) : ∃ t, run k s = .next t ∧ t.obs = s.obs ∧ t.pins = s.pins ∧ t.ready = true := by
  induction k generalizing s with
  | zero => exact ⟨s, rfl, rfl, rfl, (ready_iff s).2 hp⟩
  | succ k ih =>
    obtain ⟨u, hstep, hinputs, hcfg⟩ := step_next s
    obtain ⟨hnow, hlater⟩ := noReset_succ hrst hinputs
    obtain ⟨hidle, huobs, hupins⟩ := step_of_no_chipSelect hcs hnow hp hstep
    obtain ⟨t, hrun, hobs, hpins, hready⟩ := ih (hcfg ▸ hcs) hidle hlater
    exact ⟨t, (run_succ k hstep).trans hrun, hobs.trans huobs, hpins.trans hupins, hready⟩

/-! ### The obligations -/

/-- Settles O38: no accepted operation leaves the idle phase, so by induction on the cycles none of them is the transmitter's. -/
theorem noChipSelectMeansNoTransaction : Obligations.NoChipSelectMeansNoTransaction := by
  unfold Obligations.NoChipSelectMeansNoTransaction
  exact fun s hcs hp => ⟨fun i hi => exec_send_of_no_chipSelect hcs hi, fun k => run_of_no_chipSelect k hcs hp⟩

/-- Settles O40: the two sends are accepted operations of 51 and 195 cycles, and their events are one transaction. -/
theorem acceptedSendMakesExactlyOneTransaction : Obligations.AcceptedSendMakesExactlyOneTransaction := by
  unfold Obligations.AcceptedSendMakesExactlyOneTransaction
  exact ⟨fun n P => transactionEvents_length P,
    fun s code haccepts hcs hrst hi k => run_accepted haccepts hi (if_pos hcs) (if_pos hcs) hrst,
    fun s haccepts hcs hrst hi k => run_accepted haccepts hi (if_pos hcs) (if_pos hcs) hrst⟩

/-- Settles O41: only the cycle of `BIT_D` drives `DATA`, and the invariant gives its level in the clock phases. -/
theorem dataIsStableAroundTheClockEdges : Obligations.DataIsStableAroundTheClockEdges := by
  unfold Obligations.DataIsStableAroundTheClockEdges
  intro s hinv hrst
  obtain ⟨t, hstep, -⟩ := step_next s
  refine ⟨t, hstep, fun hchange => ?_, fun hclock => ?_⟩
  · by_contra hp
    exact hchange (step_pins_data hrst hp hstep)
  · have hp : s.txPhase ≠ .bitD := by
      intro hp
      simp [hp] at hclock
    have hdata : s.pins.data = wireBit s := data_eq_wireBit hinv hclock
    exact ⟨hdata, (step_pins_data hrst hp hstep).trans hdata⟩

/-- Settles O39: one cycle of the sequencer for each phase, and the left-aligned packet has its wire bit `i` in bit `63 - i`. -/
theorem eachPhaseMakesItsOneEvent : Obligations.EachPhaseMakesItsOneEvent := by
  unfold Obligations.EachPhaseMakesItsOneEvent
  refine ⟨fun s hrst => ⟨fun hp => ?_, fun hp => ⟨wireBit s, fun _ => rfl, ?_⟩, fun hp => ?_, fun hp hmore => ?_,
    fun hp hdone => ?_, fun hp => ?_⟩, fun P i hi => ?_, fun P i _ => rfl⟩
  · exact step_of_transmit hrst hp (by decide) (transmit_csLo hp)
  · exact step_of_transmit hrst hp (by decide) (transmit_bitD hp)
  · exact step_of_transmit hrst hp (by decide) (transmit_bitCl hp)
  · exact step_of_transmit hrst hp (by decide) (transmit_bitCh_of_lt hp hmore)
  · exact step_of_transmit hrst hp (by decide) (transmit_bitCh_of_ge hp hdone)
  · exact step_of_transmit hrst hp (by decide) (transmit_csHi hp)
  · rw [getLsbD_leftAligned, if_neg (by omega), show 63 - i - 48 = 16 - 1 - i by omega]

end Sys2Proof.Machine

/-!
Priority in one cycle (spec/60_exceptions.md R154), and what R152 gives for runs: every run goes on, and a transaction under way ends.
-/
namespace Sys2Proof.Machine

/-! ### The cycles a transaction under way still takes -/

theorem eventsFromBit_length (s : State) (i : Nat) : (eventsFromBit s i).length = 3 * (s.nbits - i) + 1 := by
  rw [eventsFromBit, List.length_append, List.range'_eq_map_range, List.flatMap_map,
    flatMap_bitEvents_length fun j => s.shreg.getLsbD (63 - (i + j)), List.length_singleton]

/-- At a bit inside the packet no more is left than the events of that bit, those of the bits after it and the two of the
chip-select. -/
theorem pendingEvents_length_le {s : State} (h : s.bidx < s.nbits) :
    (pendingEvents s).length ≤ 3 * (s.nbits - s.bidx) + 2 := by
  have hrest := eventsFromBit_length s (s.bidx + 1)
  unfold pendingEvents
  cases s.txPhase
  all_goals
    simp only [bitEvents, List.length_append, List.length_cons, List.length_nil, hrest]
    omega

/-- In the invariant no transaction is longer than that of a data packet of 64 wire bits (spec/42_packet_ops.md R115). -/
theorem pendingEvents_length_le_of_inv {s : State} (h : s.Inv) : (pendingEvents s).length ≤ 194 := by
  by_cases hp : s.txPhase = .idle
  · rw [pendingEvents_idle hp]
    exact Nat.zero_le 194
  · obtain ⟨-, -, -, -, -, -, -, hbusy⟩ := h
    obtain ⟨⟨-, hloaded⟩, hlt⟩ := hbusy hp
    have hlength := pendingEvents_length_le hlt
    have hnbits : s.nbits ≤ 64 := by omega
    omega

/-- A run of any length ends in a next state, with the parameters of its start. -/
theorem run_next (k : Nat) (s : State) : ∃ t, run k s = .next t ∧ t.cfg = s.cfg := by
  induction k generalizing s with
  | zero => exact ⟨s, rfl, rfl⟩
  | succ k ih =>
    obtain ⟨u, hstep, -, hucfg⟩ := step_next s
    obtain ⟨t, hrun, htcfg⟩ := ih u
    exact ⟨t, (run_succ k hstep).trans hrun, htcfg.trans hucfg⟩

theorem accepts_of_ready {s : State} (hrst : s.portNow.rst = false) (hready : s.ready = true)
    (hvalid : s.portNow.cmdValid = true) : s.accepts = true := by
  rw [State.accepts, hrst, hvalid, hready]
  rfl

/-! ### The obligations -/

/-- Settles O8: every single step goes on and keeps the parameters, so by induction on the number of steps every run does. -/
theorem everyRunGoesOnWithTheSameParameters : Obligations.EveryRunGoesOnWithTheSameParameters := by
  unfold Obligations.EveryRunGoesOnWithTheSameParameters
  intro k s
  obtain ⟨t, hrun, hcfg⟩ := run_next k s
  refine ⟨⟨t, hrun⟩, fun t' hrun' => ?_⟩
  cases hrun.symm.trans hrun'
  exact hcfg

/-- Settles O46: each cycle makes one of at most 194 pending events, and after the last of them the block is ready. -/
theorem busyIsLiftedWithin194Cycles : Obligations.BusyIsLiftedWithin194Cycles := by
  unfold Obligations.BusyIsLiftedWithin194Cycles
  intro s hinv hrst
  have hlength := pendingEvents_length_le_of_inv hinv
  obtain ⟨t, hrun, -, hpending, -⟩ := run_pendingEvents (pendingEvents s).length le_rfl (noReset_mono hlength hrst)
  exact ⟨_, hlength, t, hrun, ready_iff_pendingEvents_nil.2 (hpending.trans List.drop_length)⟩

/-- Settles O4: the four cases of a step, and the one event of a busy transmitter, which the host's signals do not reach. -/
theorem resetThenTransmitterThenAcceptance : Obligations.ResetThenTransmitterThenAcceptance := by
  unfold Obligations.ResetThenTransmitterThenAcceptance
  refine fun s => ⟨step_reset, fun hrst hbusy => ?_, fun hrst hidle hvalid => ?_, fun hrst hidle hvalid => ?_⟩
  · have hstep := step_busy hrst hbusy
    obtain ⟨pin, level, hobs, -, -, hbuf, hshreg, -⟩ := transmit_busy (s := s.nextPort) hbusy
    exact ⟨hstep, pin, level, _, hstep, hobs, hbuf, hshreg⟩
  · exact step_accept (accepts_of_ready hrst ((ready_iff s).2 hidle) hvalid)
  · exact step_quiet hrst hvalid hidle

end Sys2Proof.Machine

/-!
Reset (spec/70_reset_and_hazards.md R170 to R173), the command port of the busy block (R177, R178) and the time a transaction holds the
chip-select (R181).
-/
namespace Sys2Proof.Machine

/-! ### Cycles in which the host presents nothing -/

/-- What holds of silence and of the ports in the next `k + 1` cycles holds of the port now and of those in the `k` cycles after it. -/
theorem forall_take_succ_inputs {s : State} {k : Nat} {q : PortIn → Prop} (hquiet : q PortIn.quiet)
    (h : ∀ p ∈ s.inputs.take (k + 1), q p) : q s.portNow ∧ ∀ p ∈ s.nextPort.inputs.take k, q p := by
  rw [nextPort_inputs, State.portNow]
  cases hs : s.inputs with
  | nil => exact ⟨hquiet, by simp⟩
  | cons p ps => simpa [hs] using h

/-- As long as the host presents nothing, the idle block stands still and only the ports move on. -/
theorem run_quiet (k : Nat) {s : State} (hp : s.txPhase = .idle)
    (hquiet : ∀ p ∈ s.inputs.take k, p.rst = false ∧ p.cmdValid = false) :
    run k s = .next { s with inputs := s.inputs.drop k } := by
  induction k generalizing s with
  | zero => rfl
  | succ k ih =>
    obtain ⟨⟨hrst, hvalid⟩, hlater⟩ := forall_take_succ_inputs ⟨rfl, rfl⟩ hquiet
    have hstep : step s = .next s.nextPort := step_quiet hrst hvalid hp
    rw [run_succ k hstep, ih (s := s.nextPort) hp hlater, nextPort_inputs, List.drop_tail]
    rfl

/-! ### The busy block and its command port -/

/-- Without a reset the step of the busy block is the transmitter's, and the port's values are not in it. -/
theorem step_withPort_busy {s : State} {p : PortIn} (hready : s.ready = false) (hrst : p.rst = false) :
    step (s.withPort p) = .next (transmit s.nextPort) :=
  step_busy (s := s.withPort p) hrst ((not_ready_iff s).1 hready)

theorem step_withPort_busy_eq {s : State} {p q : PortIn} (hready : s.ready = false) (hp : p.rst = false)
    (hq : q.rst = false) : step (s.withPort p) = step (s.withPort q) :=
  (step_withPort_busy hready hp).trans (step_withPort_busy hready hq).symm

/-! ### A held operation -/

theorem run_one (s : State) : run 1 s = step s := by
  obtain ⟨t, hstep, -⟩ := step_next s
  rw [run_succ 0 hstep, run_zero, hstep]

/-- Of the cycles without a reset, a run uses up the first. -/
theorem noReset_of_run {j k : Nat} {s t : State} (h : s.noReset (j + k)) (hrun : run j s = .next t) : t.noReset k := by
  induction j generalizing s with
  | zero =>
    cases hrun
    rwa [Nat.zero_add] at h
  | succ j ih =>
    obtain ⟨u, hstep, hinputs, -⟩ := step_next s
    rw [Nat.add_right_comm] at h
    exact ih (noReset_succ h hinputs).2 ((run_succ j hstep).symm.trans hrun)

/-- The duty over `k + 1` cycles: an operation not taken in the first is still presented in the second, and the duty goes on. -/
theorem hostKeepsDuty_succ {k : Nat} {s t : State} (hstep : step s = .next t) (hduty : hostKeepsDuty (k + 1) s = true) :
    (s.portNow.cmdValid = true → s.ready = false → t.portNow.cmdValid = true) ∧ hostKeepsDuty k t = true := by
  rw [hostKeepsDuty, hstep, Bool.and_eq_true] at hduty
  obtain ⟨hheld, hlater⟩ := hduty
  refine ⟨fun hvalid hready => ?_, hlater⟩
  simpa [hvalid, hready] using hheld

/-- By its duty the host still presents an operation after `k` cycles in which the block was not ready to take it. -/
theorem cmdValid_of_run_busy {k m : Nat} {s t : State} (hduty : hostKeepsDuty (k + m) s = true)
    (hvalid : s.portNow.cmdValid = true) (hbusy : ∀ j < k, ∃ u, run j s = .next u ∧ u.ready = false)
    (hrun : run k s = .next t) : t.portNow.cmdValid = true := by
  induction k generalizing s with
  | zero =>
    cases hrun
    exact hvalid
  | succ k ih =>
    obtain ⟨u, hstep, -⟩ := step_next s
    obtain ⟨_, hnow, hready⟩ := hbusy 0 (Nat.succ_pos k)
    cases hnow
    rw [Nat.add_right_comm] at hduty
    obtain ⟨hheld, hlater⟩ := hostKeepsDuty_succ hstep hduty
    refine ih hlater (hheld hvalid hready) (fun j hj => ?_) ((run_succ k hstep).symm.trans hrun)
    rw [← run_succ j hstep]
    exact hbusy (j + 1) (Nat.succ_lt_succ hj)

/-- Until all its pending events are made the block is busy. -/
theorem run_not_ready {j : Nat} {s : State} (hj : j < (pendingEvents s).length) (hrst : s.noReset j) :
    ∃ u, run j s = .next u ∧ u.ready = false := by
  obtain ⟨u, hrun, -, hpending, -⟩ := run_pendingEvents j hj.le hrst
  refine ⟨u, hrun, ?_⟩
  rw [Bool.eq_false_iff, ne_eq, ready_iff_pendingEvents_nil, hpending, List.drop_eq_nil_iff]
  exact Nat.not_le.2 hj

/-- A held operation waits for the pending events, one in each cycle, and is accepted in the first cycle after them. -/
theorem run_held {k m : Nat} {s : State} (hk : (pendingEvents s).length = k) (hrst : s.noReset (k + (m + 1)))
    (hduty : hostKeepsDuty (k + (m + 1)) s = true) (hvalid : s.portNow.cmdValid = true) :
    ∃ t, run k s = .next t ∧ t.accepts = true ∧ t.buf = s.buf ∧ ∀ j < k, ∃ u, run j s = .next u ∧ u.ready = false := by
  have hbusy : ∀ j < k, ∃ u, run j s = .next u ∧ u.ready = false := fun j hj =>
    run_not_ready (hk ▸ hj) (noReset_mono (by omega) hrst)
  obtain ⟨t, hrun, -, hpending, hbuf⟩ := run_pendingEvents k hk.ge (noReset_mono (Nat.le_add_right k (m + 1)) hrst)
  have hready : t.ready = true := ready_iff_pendingEvents_nil.2 (by rw [hpending, ← hk, List.drop_length])
  obtain ⟨hnow, -⟩ := noReset_succ (t := t.nextPort) (noReset_of_run hrst hrun) rfl
  exact ⟨t, hrun, accepts_of_ready hnow hready (cmdValid_of_run_busy hduty hvalid hbusy hrun), hbuf, hbusy⟩

/-! ### The levels of a transaction -/

/-- The levels in the three cycles of a wire bit, and `CLK` back at 1 for what follows. -/
theorem waveform_bitEvents_append (d bit : Bool) (es : List BusEvent) :
    waveform ⟨false, true, d⟩ (bitEvents bit ++ es) =
      ⟨false, true, bit⟩ :: ⟨false, false, bit⟩ :: ⟨false, true, bit⟩ :: waveform ⟨false, true, bit⟩ es := rfl

/-- From the chip-select on, each wire bit adds three cycles with `CS_N` low and one with `CLK` low; its release adds none. -/
theorem low_cycles_of_bits {α : Type} (f : α → Bool) (l : List α) (d : Bool) :
    let w := waveform ⟨false, true, d⟩ ((l.flatMap fun a => bitEvents (f a)) ++ [.emit .csN true])
    (w.filter fun p => !p.csN).length = 3 * l.length ∧ (w.filter fun p => !p.clk).length = l.length := by
  induction l generalizing d with
  | nil => exact ⟨rfl, rfl⟩
  | cons a l ih =>
    obtain ⟨hcsN, hclk⟩ := ih (f a)
    rw [List.flatMap_cons, List.append_assoc, waveform_bitEvents_append]
    simp [hcsN, hclk, Nat.mul_succ]

/-- Of a transaction of `n` wire bits the first cycle selects the chip with `CLK` high, and `n` bits follow. -/
theorem low_cycles_of_transaction {n : Nat} (P : BitVec n) :
    ((waveform Pins.idle (transactionEvents P)).filter fun p => !p.csN).length = 3 * n + 1 ∧
      ((waveform Pins.idle (transactionEvents P)).filter fun p => !p.clk).length = n := by
  obtain ⟨hcsN, hclk⟩ := low_cycles_of_bits (fun i => P.getLsbD (n - 1 - i)) (List.range n) false
  rw [List.length_range] at hcsN hclk
  have hselect : waveform Pins.idle (transactionEvents P) = ⟨false, true, false⟩ :: waveform ⟨false, true, false⟩
      (((List.range n).flatMap fun i => bitEvents (P.getLsbD (n - 1 - i))) ++ [.emit .csN true]) := rfl
  rw [hselect]
  exact ⟨congrArg (· + 1) hcsN, hclk⟩

/-! ### The obligations -/

/-- Settles O3: the reset cycle leaves the reset registers, and in the quiet cycles after it the idle block stands still. -/
theorem resetCutsOffATransactionAndSendsNothing : Obligations.ResetCutsOffATransactionAndSendsNothing := by
  unfold Obligations.ResetCutsOffATransactionAndSendsNothing
  intro s hrst
  have hstep : step s = .next (resetBlock s.nextPort) := step_reset hrst
  refine ⟨⟨_, hstep, rfl, rfl, rfl, rfl, rfl, rfl, rfl, rfl⟩, fun k hquiet => ?_⟩
  have hrun := run_quiet k (s := resetBlock s.nextPort) rfl hquiet
  exact ⟨_, (run_succ k hstep).trans hrun, rfl, rfl, rfl, rfl⟩

/-- Settles O43: three low cycles of `CS_N` for each wire bit and the one that selects the chip. -/
theorem chipSelectLowTimeIsThreePerBitPlusOne : Obligations.ChipSelectLowTimeIsThreePerBitPlusOne := by
  unfold Obligations.ChipSelectLowTimeIsThreePerBitPlusOne
  intro cfg n P
  obtain ⟨hcsN, hclk⟩ := low_cycles_of_transaction P
  exact ⟨by rw [wallTime, hcsN], hclk⟩

/-- Settles O47: the operation is accepted when the pending events, at most 194, are made; and the busy block does not read the port. -/
theorem heldOperationIsAcceptedAtTheFirstReadyCycle : Obligations.HeldOperationIsAcceptedAtTheFirstReadyCycle := by
  unfold Obligations.HeldOperationIsAcceptedAtTheFirstReadyCycle
  refine ⟨fun s hinv hrst hduty hvalid => ?_, fun s v w hready =>
    ⟨step_withPort_busy_eq hready rfl rfl, step_withPort_busy_eq hready rfl rfl⟩⟩
  have hlength := pendingEvents_length_le_of_inv hinv
  obtain ⟨m, hm⟩ := Nat.exists_eq_add_of_le hlength
  have hcycles : 195 = (pendingEvents s).length + (m + 1) := congrArg (· + 1) hm
  rw [hcycles] at hrst hduty
  obtain ⟨t, hrun, haccepts, hbuf, hbusy⟩ := run_held rfl hrst hduty hvalid
  refine ⟨_, hlength, t, hrun, haccepts, hbuf, hbusy, ?_⟩
  rw [run_add _ 1 hrun, run_one, step_accept haccepts]

/-- Settles O7: the busy block's step is the transmitter's whatever the port carries, and the transmitter leaves the buffer. -/
theorem busyBlockIgnoresTheCommandPort : Obligations.BusyBlockIgnoresTheCommandPort := by
  unfold Obligations.BusyBlockIgnoresTheCommandPort
  intro s p hready hrst
  obtain ⟨-, -, -, -, -, hbuf, -⟩ := transmit_busy (s := s.nextPort) ((not_ready_iff s).1 hready)
  exact ⟨step_withPort_busy_eq hready hrst rfl, _, step_withPort_busy hready hrst, hbuf⟩

end Sys2Proof.Machine

/-!
Words and operations: an operation comes back from its encoding (spec/30_encoding.md R60 to R64), and a word on the command port is run
by the next step (spec/10_state.md R31).
-/
namespace Sys2Proof.Machine

/-! ### The encoding -/

/-- Settles O10: for each operation, the fields of its format are the opcode and the operands it was built from. -/
theorem decodeOfEncodeIsTheOperation : Obligations.DecodeOfEncodeIsTheOperation := by
  unfold Obligations.DecodeOfEncodeIsTheOperation
  exact fun _ hi => decode_encode hi

/-- Settles O9: each word has the opcode of its operation, and its operand fields are the operands. -/
theorem writtenOutWordsDecode : Obligations.WrittenOutWordsDecode := by
  unfold Obligations.WrittenOutWordsDecode
  exact ⟨decode_nop (by decide), decode_clrBatt (by decide), decode_clrDp (by decide), decode_clrGlyph (by decide),
    decode_clrAll (by decide), decode_wrText (by decide), decode_wrBatt (by decide), decode_wrDp (by decide),
    decode_sendCmd (by decide), decode_sendBuf (by decide)⟩

/-! ### A presented word -/

/-- The step after a word is presented runs the operation it decodes to, from `IDLE` and with the port moved on. -/
theorem step_presenting (s : State) (w : CmdWord) :
    step (s.presenting w) = exec (decode w) { s with txPhase := .idle, inputs := s.inputs.tail } :=
  step_accept (s := s.presenting w) rfl

/-- A row's word of at most 64 bits is decoded as the command word of that number. -/
theorem decode_of_decodeTableWord {nbits w : Nat} {i : Instr} (hi : decodeTableWord nbits w = some i) :
    decode (BitVec.ofNat 64 (w % 2 ^ nbits)) = i := by
  unfold decodeTableWord at hi
  split at hi
  · exact Option.some.inj hi
  · cases hi

/-- Settles O5: an accepted word is run as what it decodes to; a row's word and an encoding are words so presented. -/
theorem stepRunsTheAcceptedOperation : Obligations.StepRunsTheAcceptedOperation := by
  unfold Obligations.StepRunsTheAcceptedOperation
  refine ⟨fun s i haccepts hi => ?_, fun s w i hi => ?_, fun s i hi => ?_⟩
  · rw [step_accept haccepts, hi]
  · rw [State.withFetchWord, step_presenting, decode_of_decodeTableWord hi]
  · rw [step_presenting, decode_encode hi]

end Sys2Proof.Machine

/-!
The reset table (spec/70_reset_and_hazards.md R171), and the bus events of one step (spec/43_transmitter.md R131).
-/
namespace Sys2Proof.Machine

/-- Settles O2: row by row, the table's value is the one `State.reset` is built with. -/
theorem resetLeavesTheRegistersOfTheResetTable : Obligations.ResetLeavesTheRegistersOfTheResetTable := by
  unfold Obligations.ResetLeavesTheRegistersOfTheResetTable
  exact ⟨rfl, rfl, rfl, rfl, rfl, rfl, rfl, rfl, rfl⟩

section
variable {s : State}

/-- In the invariant `CS_N` and `CLK` are never at the level they are driven to, so a busy cycle that leaves the pins as they are is
in the one phase that drives `DATA`. -/
theorem bitD_of_transmit_pins_eq (hinv : s.Inv) (hbusy : s.txPhase ≠ .idle) (hsame : (transmit s).pins = s.pins) :
    s.txPhase = .bitD := by
  cases hp : s.txPhase
  case idle => exact absurd hp hbusy
  case csLo =>
    obtain ⟨-, ⟨hpins, -⟩, -⟩ := (inv_csLo_iff hp).1 hinv
    simp [transmit_csLo hp, phaseCsLo, hpins, Pins.idle] at hsame
  case bitD => rfl
  case bitCl =>
    obtain ⟨-, hpins, -⟩ := (inv_bitCl_iff hp).1 hinv
    simp [transmit_bitCl hp, phaseBitCl, hpins] at hsame
  case bitCh =>
    obtain ⟨-, hpins, -⟩ := (inv_bitCh_iff hp).1 hinv
    by_cases hmore : s.bidx + 1 < s.nbits
    · simp [transmit_bitCh_of_lt hp hmore, hpins] at hsame
    · simp [transmit_bitCh_of_ge hp (Nat.not_lt.1 hmore), hpins] at hsame
  case csHi =>
    obtain ⟨-, ⟨hpins, -⟩, -⟩ := (inv_csHi_iff hp).1 hinv
    simp [transmit_csHi hp, phaseCsHi, hpins] at hsame

/-- An event that no wire observer can see leaves the pins as they are. -/
theorem set_eq_self_of_not_visible {p : Pins} {pin : Pin} {level : Bool} (h : visible p (.emit pin level) = false) :
    p.set pin level = p :=
  not_not.1 (of_decide_eq_false h)

/-- In the invariant an event that no wire observer can see is on `DATA` (spec/43_transmitter.md R131). -/
theorem data_of_not_visible {pin : Pin} {level : Bool} (hinv : s.Inv) (hbusy : s.txPhase ≠ .idle)
    (hobs : (transmit s).obs = s.obs ++ [.emit pin level]) (hpins : (transmit s).pins = s.pins.set pin level)
    (hhidden : visible s.pins (.emit pin level) = false) : pin = .data := by
  have hp : s.txPhase = .bitD := bitD_of_transmit_pins_eq hinv hbusy (hpins.trans (set_eq_self_of_not_visible hhidden))
  rw [transmit_bitD hp] at hobs
  cases List.append_cancel_left hobs
  rfl

/-- Without a reset, a step of the ready block makes no event and leaves the pins. -/
theorem step_ready_frame {t : State} (hrst : s.portNow.rst = false) (hready : s.ready = true) (ht : step s = .next t) :
    t.obs = s.obs ∧ t.pins = s.pins := by
  rcases step_cases s with ⟨hreset, -⟩ | ⟨-, hbusy, -⟩ | ⟨-, haccept⟩ | ⟨-, -, -, hquiet⟩
  · simp [hrst] at hreset
  · exact absurd ((ready_iff s).1 hready) hbusy
  · obtain ⟨-, hpins, hobs, -⟩ := exec_frame (haccept.symm.trans ht)
    exact ⟨hobs, hpins⟩
  · cases hquiet.symm.trans ht
    exact ⟨rfl, rfl⟩

end

/-- Settles O42: a reset makes the marker, a busy cycle the transmitter's one event, and the ready block's step none. -/
theorem eachStepAddsAtMostOneEvent : Obligations.EachStepAddsAtMostOneEvent := by
  unfold Obligations.EachStepAddsAtMostOneEvent
  intro s
  obtain ⟨t, ht, -⟩ := step_next s
  refine ⟨t, ht, fun hrst => ?_, fun hrst hready => ?_, fun hrst hready => step_ready_frame hrst hready ht⟩
  · cases (step_reset hrst).symm.trans ht
    exact ⟨rfl, rfl⟩
  · have hbusy : s.nextPort.txPhase ≠ .idle := (not_ready_iff s).1 hready
    cases (step_busy hrst hbusy).symm.trans ht
    obtain ⟨pin, level, hobs, hpins, -⟩ := transmit_busy hbusy
    exact ⟨pin, level, hobs, hpins, fun hinv =>
      data_of_not_visible (s := s.nextPort) (inv_nextPort.2 hinv) hbusy hobs hpins⟩

end Sys2Proof.Machine
